-- ==== Sys2Proof/Word.lean ====
section
/-! DEFINITION. The machine word (rules R9, R10 of spec/00_scope.md, decision D1). -/

namespace Sys2Proof

/-- `Word` of R10: `XLEN = 32` bits (R9, D1), read as two's complement through `BitVec.toInt`. It is the width of a
register, of a data memory word and of an instruction result. -/
abbrev Word := BitVec 32

/-- One encoded instruction, format `F64` (R73). -/
abbrev Code := BitVec 64

end Sys2Proof
end

