-- ==== Sys2Proof/Config.lean ====
section
/-! DEFINITION. The construction parameters (R7, R8, R9, R231) and the implementation's choice of the open ones,
left uninterpreted. The parameters whose values the spec fixes stand in the model as their numbers: `NREGS` is 32,
`MEMSIZE` is 1024, `SEED_LEN` is 260 (R6), `XLEN` is 32 and `PC_MAX` is 2^31 - 1 = 2147483647 (R9). -/

namespace Sys2Proof

/-- What construction fixes (R231): the cache geometry (R7), the service instruction's register and address
(R8), and the parameters this spec adds (R9). Constant during every run. -/
structure Params where
  /-- `CACHE_CAPACITY`, words (R7). -/
  cacheCapacity : Nat
  /-- `BLOCK_SIZE`, words per line (R7). -/
  blockSize : Nat
  /-- `ASSOC`, ways per set (R7). -/
  assoc : Nat
  /-- `SVC_RD`, the reserved register of the service instruction (R8, D16). -/
  svcRd : Fin 32
  /-- `SVC_ADDR`, the reserved address of the service instruction (R8, D16). -/
  svcAddr : Fin 1024
  /-- `IMEM_SIZE`, largest program length; `none` is the default, unbounded up to `PC_MAX` (R9, D28). -/
  imemSize : Option Nat
  /-- `IRQ_DEPTH`, depth of the external interrupt FIFO; `none` is the default, unbounded (R9, D19). -/
  irqDepth : Option Nat
  /-- `HAZARD_ABSENT_MATCH`: do two absent register fields compare equal in the hazard check (R9, D10)? -/
  hazardAbsentMatch : Bool
deriving DecidableEq, Repr, Inhabited

namespace Config

/-- Uninterpreted: the number of cache sets of the implementation, less one (R7, D17). Assumption 2. -/
opaque setsLessOne : Nat

/-- Uninterpreted: the block size of the implementation, less one (R7, D17). Assumption 2. -/
opaque blockSizeLessOne : Nat

/-- Uninterpreted: the associativity of the implementation, less one (R7, D17). Assumption 2. -/
opaque assocLessOne : Nat

/-- Uninterpreted: the reserved register of the implementation (R8, D16). Assumption 2. -/
opaque svcRd : Fin 32

/-- Uninterpreted: the reserved address of the implementation (R8, D16). Assumption 2. -/
opaque svcAddr : Fin 1024

/-- The implementation's parameters: every legal geometry of R7 is of this form, whatever the uninterpreted
constants are, and the parameters with a default in R9 stand at it. -/
def params : Params where
  cacheCapacity := (setsLessOne + 1) * ((blockSizeLessOne + 1) * (assocLessOne + 1))
  blockSize := blockSizeLessOne + 1
  assoc := assocLessOne + 1
  svcRd := svcRd
  svcAddr := svcAddr
  imemSize := none
  irqDepth := none
  hazardAbsentMatch := false

/-- The instantiation of the spec's examples (R7, R8, 95_test_vectors.md): "an example and not a default of the
hardware". The tests run on it; no statement rests on it. -/
def exampleParams : Params where
  cacheCapacity := 16
  blockSize := 4
  assoc := 2
  svcRd := 31
  svcAddr := 255
  imemSize := none
  irqDepth := none
  hazardAbsentMatch := false

end Config

end Sys2Proof
end

