-- ==== Sys2Proof/Machine/Memory.lean ====
section
/-! DEFINITION. Data memory (R30, R50 to R56): a canonical list of the words that differ from their seed. The
machine has no bytes (R53), so a cell is one word. -/

namespace Sys2Proof.Machine

/-- A listed word: its address and its value (R30). -/
abbrev Cell := Nat × Word

/-- The words of data memory that differ from what a load seeds there, addresses strictly rising. -/
abbrev Memory := List Cell

/-- What an unlisted address reads as: the reset contents of R30, `mem[i] = i` below `SEED_LEN`, 0 above. -/
def seedWord (a : Nat) : Word := if a < 260 then BitVec.ofNat 32 a else 0

/-- `mem[a]`. -/
def Memory.read : Memory → Nat → Word
  | [], a => seedWord a
  | (b, w) :: m, a => if a = b then w else Memory.read m a

/-- Put one cell in front of a memory unless it holds the seed. -/
def Memory.push (a : Nat) (v : Word) (m : Memory) : Memory :=
  if v = seedWord a then m else (a, v) :: m

/-- `mem[a] <- v`, keeping the canonical form. -/
def Memory.write : Memory → Nat → Word → Memory
  | [], a, v => Memory.push a v []
  | (b, w) :: m, a, v =>
    if a < b then Memory.push a v ((b, w) :: m)
    else if a = b then Memory.push a v m
    else (b, w) :: Memory.write m a v

/-- The canonical form above a lower bound: addresses strictly rising and inside the array, no entry that an
unlisted address would give as well. -/
def Memory.wfFrom (low : Nat) : Memory → Bool
  | [] => true
  | (a, v) :: m => decide (low ≤ a) && decide (a < 1024) && decide (v ≠ seedWord a) && Memory.wfFrom (a + 1) m

/-- The canonical form. -/
def Memory.wf (m : Memory) : Bool := Memory.wfFrom 0 m

end Sys2Proof.Machine
end

