-- ==== Sys2Proof/Machine/Cache.lean ====
section
/-! DEFINITION. The cache engine (R170 to R180 of spec/45_cache.md), in its list form (R33; R178 allows either
form): per set an ordered list of lines, oldest inserted first. -/

namespace Sys2Proof.Machine

/-- `CacheLine` (R33): "valid flag, tag, single data word". -/
structure CacheLine where
  valid : Bool
  tag : Nat
  data : Word
deriving DecidableEq, Repr, Inhabited

/-- The lines of one set, oldest inserted first (R33). -/
abbrev CacheSet := List CacheLine

/-- The array `sets` of `NUM_SETS` sets (R33). -/
abbrev Cache := List CacheSet

/-- A legal geometry (R7, R170): three positive integers, the capacity an exact multiple of block size times
associativity. -/
def geometryLegal (capacity blockSize assoc : Int) : Bool :=
  decide (1 ≤ capacity) && decide (1 ≤ blockSize) && decide (1 ≤ assoc) &&
    decide (capacity % (blockSize * assoc) = 0)

/-- `NUM_SETS` (R7). -/
def numSets (p : Params) : Nat := p.cacheCapacity / (p.blockSize * p.assoc)

/-- `block(a)` (R174). -/
def blockOf (p : Params) (a : Nat) : Nat := a / p.blockSize

/-- `set_index(a)` (R174). -/
def setIndex (p : Params) (a : Nat) : Nat := blockOf p a % numSets p

/-- `tag(a)` (R174). -/
def tagOf (p : Params) (a : Nat) : Nat := a / (p.blockSize * numSets p)

/-- Every set empty (R37, R177). -/
def emptyCache (p : Params) : Cache := List.replicate (numSets p) []

/-- The set with index `k`. -/
def setAt (c : Cache) (k : Nat) : CacheSet := c.getD k []

/-- Does a set hold a valid line with the tag (R171, R175)? -/
def holdsTag (lines : CacheSet) (t : Nat) : Bool := lines.any fun l => l.valid && l.tag == t

/-- Append a line, and drop the oldest inserted one if the set now exceeds the associativity (R172, R173). -/
def insertLine (assoc : Nat) (lines : CacheSet) (l : CacheLine) : CacheSet :=
  if (lines ++ [l]).length > assoc then (lines ++ [l]).drop 1 else lines ++ [l]

/-- `access(a, mem)` (R171): the hit flag, and the sets afterwards. Precondition `a < MEMSIZE`. -/
def cacheAccess (p : Params) (c : Cache) (m : Memory) (a : Nat) : Bool × Cache :=
  if holdsTag (setAt c (setIndex p a)) (tagOf p a) then (true, c)
  else
    (false, c.set (setIndex p a)
      (insertLine p.assoc (setAt c (setIndex p a)) ⟨true, tagOf p a, m.read a⟩))

/-- The lines of a set have pairwise distinct tags (R33, R172). -/
def tagsDistinct : CacheSet → Bool
  | [] => true
  | l :: rest => rest.all (fun l' => l'.tag != l.tag) && tagsDistinct rest

/-- What R33 and R180 (c), (d) say of one set: at most `ASSOC` lines, all valid, tags distinct. -/
def cacheSetWf (p : Params) (lines : CacheSet) : Bool :=
  decide (lines.length ≤ p.assoc) && lines.all (fun l => l.valid) && tagsDistinct lines

/-- What R33 says of the whole cache. -/
def cacheWf (p : Params) (c : Cache) : Bool :=
  decide (c.length = numSets p) && c.all (cacheSetWf p)

/-- The parameters of the machine that `State.reset` is the reset of: the implementation's own. -/
def resetParams : Params := Config.params

end Sys2Proof.Machine
end

