-- ==== Sys2Proof/Syntax.lean ====
section
/-! DEFINITION. The instruction record (R70 of spec/30_encoding.md): the nine opcodes, each with the record's
four optional fields. Absence of a field is observable (R72, R75), so every opcode carries all four. -/

namespace Sys2Proof

/-- The closed opcode set (R2, R70, R86), named as the spec names it. -/
inductive Opcode where
  | ADD | SUB | MUL | LD | ST | BEQ | BNE | JMP | INT
deriving DecidableEq, Repr, Inhabited

/-- The optional fields of the instruction record (R70). A register index (`RegIndex`) is an integer, intended to lie
in `0..31` but not confined to it (R76). -/
structure Operands where
  /-- The optional destination register. -/
  rd : Option Int
  /-- The optional first source register. -/
  rs1 : Option Int
  /-- The optional second source register. -/
  rs2 : Option Int
  /-- The optional immediate: an unbounded integer at the record level (R77). -/
  imm : Option Int
deriving DecidableEq, Repr, Inhabited

/-- The field a stage action asks for: the information of `MissingOperand` (R191, R195). `result` is the entry's
latch (R29), which R195 adds "for totality". -/
inductive Field where
  | rd | rs1 | rs2 | imm | result
deriving DecidableEq, Repr, Inhabited

/-- The instruction record, one constructor per opcode of the table (R70, R80). -/
inductive Instr where
  | add (o : Operands)
  | sub (o : Operands)
  | mul (o : Operands)
  | ld (o : Operands)
  | st (o : Operands)
  | beq (o : Operands)
  | bne (o : Operands)
  | jmp (o : Operands)
  | int (o : Operands)
deriving DecidableEq, Repr, Inhabited

/-- The record's `op` field (R70). -/
def Instr.opcode : Instr → Opcode
  | .add _ => .ADD
  | .sub _ => .SUB
  | .mul _ => .MUL
  | .ld _ => .LD
  | .st _ => .ST
  | .beq _ => .BEQ
  | .bne _ => .BNE
  | .jmp _ => .JMP
  | .int _ => .INT

/-- The record's optional fields (R70). -/
def Instr.operands : Instr → Operands
  | .add o | .sub o | .mul o | .ld o | .st o | .beq o | .bne o | .jmp o | .int o => o

/-- The record with the given `op` and fields (R70). -/
def Opcode.instr (op : Opcode) (o : Operands) : Instr :=
  match op with
  | .ADD => .add o
  | .SUB => .sub o
  | .MUL => .mul o
  | .LD => .ld o
  | .ST => .st o
  | .BEQ => .beq o
  | .BNE => .bne o
  | .JMP => .jmp o
  | .INT => .int o

end Sys2Proof
end

