-- ==== Sys2Proof/Machine/State.lean ====
section
/-! DEFINITION. The state of the machine (spec/10_state.md), the faults and refusals of a step, and the state
after reset. Every field is plain data. -/

namespace Sys2Proof.Machine

/-- The five pipeline positions (R28), youngest first. -/
inductive Slot where
  | IF | ID | EX | MEM | WB
deriving DecidableEq, Repr, Inhabited

/-- A slot entry (R13, R29): an instruction and its result latch. -/
structure Entry where
  instr : Instr
  result : Option Word
deriving DecidableEq, Repr, Inhabited

/-- The five slots, each with at most one entry (R28). -/
structure Slots where
  IF : Option Entry
  ID : Option Entry
  EX : Option Entry
  MEM : Option Entry
  WB : Option Entry
deriving DecidableEq, Repr, Inhabited

/-- `clear_slots()` and the slots after a load (R12, R28). -/
def Slots.empty : Slots := ⟨none, none, none, none, none⟩

/-- An interrupt tag (R9, R34, D19): opaque, stored and returned, never interpreted. -/
structure Tag where
  id : Nat
deriving DecidableEq, Repr, Inhabited

/-- The value of the fault status (R35, R191): the names that R191 numbers 1 to 6. -/
inductive FaultCode where
  | configurationError | registerBounds | pcBounds | memoryBounds | missingOperand | illegalInstruction
deriving DecidableEq, Repr, Inhabited

/-- The faults of R191 with the information each reports. The spec itself names every one of them as the outcome
(R190), so each is safe: the machine stops where the spec says it stops. -/
inductive Fault where
  /-- Raised by construction (R170), never by a step: the cache geometry is illegal. Safe. -/
  | configurationError (capacity blockSize assoc : Int)
  /-- Raised by `readRegister` and `writeRegister`: the index is outside `0..NREGS-1` (R192). Safe. -/
  | registerBounds (index : Int)
  /-- Raised by `setPc`: the value is outside `0..PC_MAX` (R193). Safe. -/
  | pcBounds (value : Int)
  /-- Raised by `checkAddress`: the address is outside `0..MEMSIZE-1` (R51, R194). Safe. -/
  | memoryBounds (address : Int)
  /-- Raised by `need`: a stage action needs a field that is absent (R195). Safe. -/
  | missingOperand (op : Opcode) (field : Field)
  /-- Raised by a load of a binary image, never by a step: a word does not decode (R86). Safe. -/
  | illegalInstruction (index : Nat) (word : Code)
deriving DecidableEq, Repr, Inhabited

/-- Why an operation is not performed, the state unchanged. -/
inductive Refusal where
  /-- An instruction of the table with no meaning in this model; no arm of `exec` answers it. Safe. -/
  | notModelled (mnemonic : String)
  /-- Answered by `step` while the fault status is set (R163, R190). Safe: the spec refuses it. -/
  | faulted (code : FaultCode)
  /-- Answered by `step` before the first completed load (R163, R231). Safe: the spec refuses it. -/
  | noProgram
  /-- Answered by `loadProgram` on a program longer than `IMEM_SIZE` (R230, D28). Safe: the spec refuses it. -/
  | programTooLong (length : Nat)
  /-- Answered by `trigger` on a full finite FIFO (R201, D19). Safe: the spec refuses it. -/
  | fifoFull
deriving DecidableEq, Repr, Inhabited

/-- The whole state of the engine and its interrupt controller (spec/10_state.md), with the construction
parameters (R231) and two fields of the model's own: `loaded` and `active`. -/
structure State where
  /-- The construction parameters (R33: "The cache holds its three parameters"; R231). -/
  params : Params
  /-- `r0` to `r31` (R20). -/
  regs : Vector Word 32
  /-- The program counter, an instruction index (R22). -/
  pc : Nat
  /-- The cycle counter (R26, R142). -/
  cycle : Nat
  /-- The cache-hit counter (R26). -/
  hits : Nat
  /-- The cache-miss counter (R26). -/
  misses : Nat
  /-- The internal pending flag (R25). -/
  pending : Bool
  /-- The pipeline slots with their result latches (R28, R29). -/
  slots : Slots
  /-- Data memory (R30). -/
  mem : Memory
  /-- Instruction memory: the loaded program (R31). -/
  prog : List Instr
  /-- The sets of the cache (R33). -/
  cache : Cache
  /-- The external interrupt FIFO, earliest first (R34). -/
  irqFifo : List Tag
  /-- The fault status (R35). -/
  fault : Option FaultCode
  /-- Has a load completed since construction (R140, R163)? The model's name for that condition. -/
  loaded : Bool
  /-- The slot whose stage action is being run; `none` between steps and once a step has ended (R14, R140). -/
  active : Option Slot
deriving DecidableEq, Repr, Inhabited

/-- The state after a load of `p` (R37, the table): everything but the parameters, the external FIFO and the
program is fixed. -/
def State.afterLoad (params : Params) (irqFifo : List Tag) (p : List Instr) : State where
  params := params
  regs := Vector.replicate 32 0
  pc := 0
  cycle := 0
  hits := 0
  misses := 0
  pending := false
  slots := Slots.empty
  mem := []
  prog := p
  cache := emptyCache params
  irqFifo := irqFifo
  fault := none
  loaded := true
  active := none

/-- The machine right after reset: the state R37 gives after the load of the empty program (R230, R232: a load is
the only reset), the external FIFO as construction leaves it (R34). Assumption 4. -/
def State.reset : State := State.afterLoad resetParams [] []

end Sys2Proof.Machine
end

