-- ==== Sys2Proof/Machine/Ops.lean ====
section
/-! DEFINITION. The named operations over registers, data memory, the program counter, the slots and the counters
(R12 of spec/00_scope.md), the flush (R146), and interrupt entry (R141), the machine's one way of taking an
exception. There is no return from it to model: "There is no return instruction and nothing to return from" (R210). -/

namespace Sys2Proof.Machine

/-- The outcome of a stage action or a step (R16). -/
abbrev Result := Host.Outcome State Fault Refusal

/-- `raise F(info)` ends the step (R12, R190): go on with the value, or fault. -/
def orFault {α : Type} (x : Except Fault α) (k : α → Result) : Result :=
  match x with
  | .ok a => k a
  | .error f => .fault f

/-- Run a second part of a step on the state the first one left, if it left one (R140: the first `raise` met wins). -/
def andThen (r : Result) (k : State → Result) : Result :=
  match r with
  | .next s => k s
  | .fault f => .fault f
  | .refused x => .refused x

/-- `wrap(v)` of R10: the unique word congruent to `v` modulo `2^XLEN`. -/
def wrap (v : Int) : Word := BitVec.ofInt 32 v

/-- `need(f)` of R11: the value of a present field, `MissingOperand` otherwise. -/
def need {α : Type} (op : Opcode) (field : Field) (f : Option α) : Except Fault α :=
  match f with
  | some v => .ok v
  | none => .error (.missingOperand op field)

/-- The bounds check of a register access (R12, R192). -/
def registerNumber (i : Int) : Except Fault (Fin 32) :=
  if h : 0 ≤ i ∧ i < 32 then .ok ⟨i.toNat, (Int.toNat_lt h.1).mpr h.2⟩ else .error (.registerBounds i)

/-- `x[i]` read (R12, R20). -/
def readRegister (s : State) (i : Int) : Except Fault Word :=
  match registerNumber i with
  | .ok r => .ok (s.regs.get r)
  | .error f => .error f

/-- The register file with register `r` holding `v` (R20: no register is hard-wired). -/
def putRegister (r : Fin 32) (v : Word) (s : State) : State :=
  { s with regs := s.regs.set r.val v r.isLt }

/-- `x[i] <- v` (R12, R20). -/
def writeRegister (i : Int) (v : Word) (s : State) : Except Fault State :=
  match registerNumber i with
  | .ok r => .ok (putRegister r v s)
  | .error f => .error f

/-- The bounds check of a data memory access (R12, R51): a negative address does not wrap. -/
def checkAddress (a : Int) : Except Fault Nat :=
  if 0 ≤ a ∧ a < 1024 then .ok a.toNat else .error (.memoryBounds a)

/-- `MemRead(a, 1)` at a checked address (R12, R55). -/
def memRead (s : State) (a : Nat) : Word := s.mem.read a

/-- `MemWrite(a, 1, v)` at a checked address (R12, R55, R59): at once, with no effect on the cache (R113). -/
def memWrite (a : Nat) (v : Word) (s : State) : State := { s with mem := s.mem.write a v }

/-- The state with the program counter at `k` (R22). -/
def putPc (k : Nat) (s : State) : State := { s with pc := k }

/-- `pc <- t` (R12, R126, R193). -/
def setPc (t : Int) (s : State) : Except Fault State :=
  if 0 ≤ t ∧ t ≤ 2147483647 then .ok (putPc t.toNat s) else .error (.pcBounds t)

/-- The entry in a slot (R13). -/
def Slots.get (sl : Slots) : Slot → Option Entry
  | .IF => sl.IF
  | .ID => sl.ID
  | .EX => sl.EX
  | .MEM => sl.MEM
  | .WB => sl.WB

/-- The entry with its result latch written (R29). -/
def Entry.withResult (v : Word) (e : Entry) : Entry := { e with result := some v }

/-- `e.result <- v` for the entry in EX (R29, R100 to R102). -/
def latchEX (v : Word) (s : State) : State :=
  { s with slots := { s.slots with EX := s.slots.EX.map (Entry.withResult v) } }

/-- `e.result <- v` for the entry in MEM (R29, R110). -/
def latchMEM (v : Word) (s : State) : State :=
  { s with slots := { s.slots with MEM := s.slots.MEM.map (Entry.withResult v) } }

/-- `e.result` of the entry in WB (R29, R143). -/
def resultWB (s : State) : Option Word := s.slots.WB.bind Entry.result

/-- The cache access of a load (R110, R171): query the cache at a checked address, count the hit or the miss. -/
def recordAccess (a : Nat) (s : State) : State :=
  { s with
    cache := (cacheAccess s.params s.cache s.mem a).2
    hits := if (cacheAccess s.params s.cache s.mem a).1 then s.hits + 1 else s.hits
    misses := if (cacheAccess s.params s.cache s.mem a).1 then s.misses else s.misses + 1 }

/-- The slot whose stage action runs next (R140: the order WB, MEM, EX). -/
def serveSlot (sl : Slot) (s : State) : State := { s with active := some sl }

/-- A flush (R146): all five slots become empty, the step counts one cycle and ends. -/
def flush (s : State) : State :=
  { s with slots := Slots.empty, cycle := s.cycle + 1, active := none }

/-- `SVC`, the fixed record `LD{rd = SVC_RD, imm = SVC_ADDR}` (R8, R19, R116). -/
def serviceInstruction (p : Params) : Instr :=
  .ld { rd := some (p.svcRd.val : Int), rs1 := none, rs2 := none, imm := some (p.svcAddr.val : Int) }

/-- Interrupt entry (R141, R209): `SVC` replaces the content of IF, the flag is cleared, one cycle is counted. It
saves nothing, changes no mode and leaves `pc` alone. -/
def interruptEntry (s : State) : State :=
  { s with
    slots := { s.slots with IF := some ⟨serviceInstruction s.params, none⟩ }
    pending := false
    cycle := s.cycle + 1
    active := none }

end Sys2Proof.Machine
end

