-- ==== Sys2Proof/Machine/Operands.lean ====
section
/-! DEFINITION. The operand forms: a source register, the second operand of the arithmetic instructions (R103), the
absolute data address (R114), the branch and jump targets (R120, R122), and the write-back of R143. -/

namespace Sys2Proof.Machine

/-- `x[need(f)]`: the value of the register a field names. -/
def sourceRegister (op : Opcode) (field : Field) (f : Option Int) (s : State) : Except Fault Word :=
  match need op field f with
  | .ok i => readRegister s i
  | .error e => .error e

/-- The second operand (R103): the register `rs2` if that field is present, otherwise the immediate. An `rs2` out of
range does not fall back to the immediate. -/
def secondOperand (op : Opcode) (o : Operands) (s : State) : Except Fault Word :=
  match o.rs2 with
  | some i => readRegister s i
  | none =>
    match need op .imm o.imm with
    | .ok v => .ok (wrap v)
    | .error e => .error e

/-- `EA = imm` (R114): the one addressing mode, an absolute word address, checked (R51). -/
def effectiveAddress (op : Opcode) (o : Operands) : Except Fault Nat :=
  match need op .imm o.imm with
  | .ok a => checkAddress a
  | .error e => .error e

/-- `pc <- pc + need(imm)` of a taken branch (R120, R125): the displacement is added to the index of the next
instruction to fetch, in unbounded arithmetic (R77). -/
def branchTo (op : Opcode) (o : Operands) (s : State) : Except Fault State :=
  match need op .imm o.imm with
  | .ok d => setPc ((s.pc : Int) + d) s
  | .error e => .error e

/-- `pc <- need(imm)` of JMP (R122): absolute. -/
def jumpTo (op : Opcode) (o : Operands) (s : State) : Except Fault State :=
  match need op .imm o.imm with
  | .ok t => setPc t s
  | .error e => .error e

/-- `x[need(rd)] <- need(e.result)`, the WB action of ADD, SUB, MUL and LD (R143). -/
def commitResult (op : Opcode) (o : Operands) (s : State) : Result :=
  orFault (need op .rd o.rd) fun i =>
    orFault (need op .result (resultWB s)) fun v =>
      orFault (writeRegister i v s) fun s' => .next s'

end Sys2Proof.Machine
end

