-- ==== Sys2Proof/Machine/Flags.lean ====
section
/-! DEFINITION. The machine has no condition codes (R24): what stands here is the pending flag, "the only boolean in
the machine" (R24, R25), the two branch conditions, and the comparison of the hazard check (R150). -/

namespace Sys2Proof.Machine

/-- `pending <- true` (R25): a flag, not a counter, so setting it while set changes nothing. -/
def raisePending (s : State) : State := { s with pending := true }

/-- The condition of BEQ (R120): equality of the two register values. -/
def equalCondition (a b : Word) : Bool := a == b

/-- The condition of BNE (R121): the two register values differ. -/
def differCondition (a b : Word) : Bool := a != b

/-- Do two optional register fields compare equal in the hazard check (R150, D10)? Indices are compared as numbers,
whatever their range. Two absent fields compare equal only under `HAZARD_ABSENT_MATCH`. -/
def fieldsMatch (absentMatch : Bool) (a b : Option Int) : Bool :=
  match a, b with
  | some i, some j => i == j
  | none, none => absentMatch
  | some _, none => false
  | none, some _ => false

/-- The hazard condition (R150): ID and EX are occupied and ID's `rs1` equals EX's `rd`. No opcode, no register value
and no second source is looked at (R152). -/
def hazard (s : State) : Bool :=
  match s.slots.ID, s.slots.EX with
  | some d, some x => fieldsMatch s.params.hazardAbsentMatch d.instr.operands.rs1 x.instr.operands.rd
  | none, _ => false
  | some _, none => false

end Sys2Proof.Machine
end

