-- ==== Sys2Proof/Machine/Arithmetic.lean ====
section
/-! DEFINITION. ADD, SUB and MUL (R100 to R106 of spec/40_arithmetic.md): what each does in each slot (R147). -/

namespace Sys2Proof.Machine

/-- `wrap(a + b)` (R100, R106). -/
def sum (a b : Word) : Word := wrap (a.toInt + b.toInt)

/-- `wrap(a - b)`, first operand minus second (R101, R106). -/
def difference (a b : Word) : Word := wrap (a.toInt - b.toInt)

/-- `wrap(a * b)`, the low `XLEN` bits of the exact product (R102, R106). -/
def product (a b : Word) : Word := wrap (a.toInt * b.toInt)

/-- The EX action of the three: read the operands, latch the result; `pc` unchanged and the cycle continues. -/
def arithmeticEX (op : Opcode) (f : Word → Word → Word) (o : Operands) (s : State) : Result :=
  orFault (sourceRegister op .rs1 o.rs1 s) fun a =>
    orFault (secondOperand op o s) fun b => .next (latchEX (f a b) s)

/-- The stage actions common to the three: none in IF, ID and MEM. -/
def arithmetic (op : Opcode) (f : Word → Word → Word) (o : Operands) (s : State) : Result :=
  match s.active with
  | some .EX => arithmeticEX op f o s
  | some .WB => commitResult op o s
  | some .IF | some .ID | some .MEM | none => .next s

/-- ADD (R100). -/
def execAdd (o : Operands) (s : State) : Result := arithmetic .ADD sum o s

/-- SUB (R101). -/
def execSub (o : Operands) (s : State) : Result := arithmetic .SUB difference o s

/-- MUL (R102). -/
def execMul (o : Operands) (s : State) : Result := arithmetic .MUL product o s

end Sys2Proof.Machine
end

