-- ==== Sys2Proof/Machine/ControlTransfer.lean ====
section
/-! DEFINITION. BEQ, BNE and JMP (R120 to R127 of spec/42_control_transfer.md): they act in EX only. -/

namespace Sys2Proof.Machine

/-- The EX action of a conditional branch: a taken one updates `pc`, flushes and ends the step; one not taken
continues it, its immediate unread (R120, R121). -/
def branchEX (op : Opcode) (cond : Word → Word → Bool) (o : Operands) (s : State) : Result :=
  orFault (sourceRegister op .rs1 o.rs1 s) fun a =>
    orFault (sourceRegister op .rs2 o.rs2 s) fun b =>
      if cond a b then orFault (branchTo op o s) fun s' => .next (flush s') else .next s

/-- BEQ (R120). -/
def execBeq (o : Operands) (s : State) : Result :=
  match s.active with
  | some .EX => branchEX .BEQ equalCondition o s
  | some .IF | some .ID | some .MEM | some .WB | none => .next s

/-- BNE (R121). -/
def execBne (o : Operands) (s : State) : Result :=
  match s.active with
  | some .EX => branchEX .BNE differCondition o s
  | some .IF | some .ID | some .MEM | some .WB | none => .next s

/-- JMP (R122): the range check of the target comes before the flush (R126). -/
def execJmp (o : Operands) (s : State) : Result :=
  match s.active with
  | some .EX => orFault (jumpTo .JMP o s) fun s' => .next (flush s')
  | some .IF | some .ID | some .MEM | some .WB | none => .next s

end Sys2Proof.Machine
end

