-- ==== Sys2Proof/Machine/LoadStore.lean ====
section
/-! DEFINITION. LD and ST (R110 to R116 of spec/41_load_store.md): what each does in each slot (R147). -/

namespace Sys2Proof.Machine

/-- The MEM action of LD (R110): the cache is queried and a counter goes up, and the latched word is `mem[a]`
whether the access hit or missed (R111). -/
def loadMEM (o : Operands) (s : State) : Result :=
  orFault (effectiveAddress .LD o) fun a => .next (latchMEM (memRead s a) (recordAccess a s))

/-- The MEM action of ST (R112): the address is checked first, then the register read (R197), then the word stored. -/
def storeMEM (o : Operands) (s : State) : Result :=
  orFault (effectiveAddress .ST o) fun a =>
    orFault (sourceRegister .ST .rs1 o.rs1 s) fun v => .next (memWrite a v s)

/-- LD (R110), the service instruction among them (R116). -/
def execLd (o : Operands) (s : State) : Result :=
  match s.active with
  | some .MEM => loadMEM o s
  | some .WB => commitResult .LD o s
  | some .IF | some .ID | some .EX | none => .next s

/-- ST (R112). -/
def execSt (o : Operands) (s : State) : Result :=
  match s.active with
  | some .MEM => storeMEM o s
  | some .IF | some .ID | some .EX | some .WB | none => .next s

end Sys2Proof.Machine
end

