-- ==== Sys2Proof/Machine/System.lean ====
section
/-! DEFINITION. INT (R130 to R132 of spec/43_system.md), the only system instruction. -/

namespace Sys2Proof.Machine

/-- INT (R130): in EX it sets the pending flag, flushes and ends the step. It reads no field. -/
def execInt (_o : Operands) (s : State) : Result :=
  match s.active with
  | some .EX => .next (flush (raisePending s))
  | some .IF | some .ID | some .MEM | some .WB | none => .next s

end Sys2Proof.Machine
end

