-- ==== Sys2Proof/WellFormed.lean ====
section
/-! DEFINITION. The two checks of spec/30_encoding.md on an instruction record: `WF` of R71, which the hardware
never performs (R72), and the bounds within which R79 gives the record an encoding. -/

namespace Sys2Proof

/-- A register index that names a register (R20, R71). -/
def registerNamed (i : Int) : Bool := 0 ≤ i && i < 32

/-- An optional field is absent, or its value passes the check. -/
def absentOr {α : Type} (check : α → Bool) : Option α → Bool
  | none => true
  | some v => check v

/-- Every present register index lies in `0..NREGS-1` (R71). -/
def Operands.registersNamed (o : Operands) : Bool :=
  absentOr registerNamed o.rd && absentOr registerNamed o.rs1 && absentOr registerNamed o.rs2

/-- The fields the opcode needs are present (the table of R71). -/
def Instr.operandsPresent : Instr → Bool
  | .add o | .sub o | .mul o => o.rd.isSome && o.rs1.isSome && (o.rs2.isSome || o.imm.isSome)
  | .ld o => o.rd.isSome && o.imm.isSome
  | .st o => o.rs1.isSome && o.imm.isSome
  | .beq o | .bne o => o.rs1.isSome && o.rs2.isSome && o.imm.isSome
  | .jmp o => o.imm.isSome
  | .int _ => true

/-- `WF(i)` of R71. -/
def Instr.wellFormed (i : Instr) : Bool := i.operandsPresent && i.operands.registersNamed

/-- A register index that an 8-bit field holds (R76, R79). -/
def registerFits (i : Int) : Bool := 0 ≤ i && i < 256

/-- An immediate that the 32-bit signed field holds (R77, R79). -/
def immFits (v : Int) : Bool := -2147483648 ≤ v && v < 2147483648

/-- The fields of a record that has an encoding (R79). -/
def Operands.encodable (o : Operands) : Bool :=
  absentOr registerFits o.rd && absentOr registerFits o.rs1 && absentOr registerFits o.rs2 &&
    absentOr immFits o.imm

/-- The records for which `encode` is defined (R79): any opcode with any combination of present fields. -/
def Instr.encodable (i : Instr) : Bool := i.operands.encodable

end Sys2Proof
end

