-- ==== Sys2Proof/Decode.lean ====
section
/-! DEFINITION. The binary format `F64` (R73 to R80, R86, R87 of spec/30_encoding.md): the decoder, total on
64-bit words and rejecting by name, and after it the encoder, written from the same tables; then the spec's two
notations for a record (R90, R91). -/

namespace Sys2Proof

/-- Why a word does not decode (R78). -/
inductive DecodeError where
  /-- `opc` is 0 or 10 to 15 (R86). -/
  | illegalOpcode (opc : Nat)
  /-- The presence bit of the field is 0 and its value field is not all zeros (R75, R87). -/
  | nonzeroAbsent (field : Field)
deriving DecidableEq, Repr

/-- `opcode_of`: the opcode number of R80 (`W[63:60]`), with 0 and 10 to 15 illegal (R86). -/
def opcodeOf (opc : Nat) : Option Opcode :=
  match opc with
  | 1 => some .ADD
  | 2 => some .SUB
  | 3 => some .MUL
  | 4 => some .LD
  | 5 => some .ST
  | 6 => some .BEQ
  | 7 => some .BNE
  | 8 => some .JMP
  | 9 => some .INT
  | _ => none

/-- `W[63:60]`, the opcode number (R74). -/
def opcField (W : Code) : BitVec 4 := W.extractLsb' 60 4

/-- `W[59]`, `P_rd` (R74). -/
def rdPresent (W : Code) : Bool := W.getLsbD 59

/-- `W[58]`, `P_rs1` (R74). -/
def rs1Present (W : Code) : Bool := W.getLsbD 58

/-- `W[57]`, `P_rs2` (R74). -/
def rs2Present (W : Code) : Bool := W.getLsbD 57

/-- `W[56]`, `P_imm` (R74). -/
def immPresent (W : Code) : Bool := W.getLsbD 56

/-- `W[55:48]`, the destination register index (R74). -/
def rdField (W : Code) : BitVec 8 := W.extractLsb' 48 8

/-- `W[47:40]`, the first source register index (R74). -/
def rs1Field (W : Code) : BitVec 8 := W.extractLsb' 40 8

/-- `W[39:32]`, the second source register index (R74). -/
def rs2Field (W : Code) : BitVec 8 := W.extractLsb' 32 8

/-- `W[31:0]`, the immediate (R74). -/
def immField (W : Code) : BitVec 32 := W.extractLsb' 0 32

/-- The zero-extended register field when its presence bit is set (R76, R78). -/
def decodeRegister (present : Bool) (field : BitVec 8) : Option Int :=
  if present then some (field.toNat : Int) else none

/-- The sign-extended immediate when its presence bit is set (R77, R78). -/
def decodeImmediate (present : Bool) (field : BitVec 32) : Option Int :=
  if present then some field.toInt else none

/-- The operand fields of a word, whatever its opcode (R78: "Decoding does not look at `WF`"). -/
def decodeOperands (W : Code) : Operands where
  rd := decodeRegister (rdPresent W) (rdField W)
  rs1 := decodeRegister (rs1Present W) (rs1Field W)
  rs2 := decodeRegister (rs2Present W) (rs2Field W)
  imm := decodeImmediate (immPresent W) (immField W)

/-- `decode(W)` of R78, with the reason where the rule returns `none`. -/
def decode (W : Code) : Except DecodeError Instr :=
  match opcodeOf (opcField W).toNat with
  | none => .error (.illegalOpcode (opcField W).toNat)
  | some op =>
    if !rdPresent W && rdField W != 0 then .error (.nonzeroAbsent .rd)
    else if !rs1Present W && rs1Field W != 0 then .error (.nonzeroAbsent .rs1)
    else if !rs2Present W && rs2Field W != 0 then .error (.nonzeroAbsent .rs2)
    else if !immPresent W && immField W != 0 then .error (.nonzeroAbsent .imm)
    else .ok (op.instr (decodeOperands W))

/-- The opcode numbers of R80. -/
def Opcode.number : Opcode → BitVec 4
  | .ADD => 1
  | .SUB => 2
  | .MUL => 3
  | .LD => 4
  | .ST => 5
  | .BEQ => 6
  | .BNE => 7
  | .JMP => 8
  | .INT => 9

/-- The 8-bit value field of a register operand: the index, or 0 when absent (R75, R79). -/
def encodeRegister : Option Int → BitVec 8
  | none => 0
  | some i => BitVec.ofInt 8 i

/-- The 32-bit value field of the immediate: the value, or 0 when absent (R75, R79). -/
def encodeImmediate : Option Int → BitVec 32
  | none => 0
  | some v => BitVec.ofInt 32 v

/-- The word of format `F64` (R74) with the given opcode and fields; meaningful on encodable records. -/
def encodeWord (i : Instr) : Code :=
  i.opcode.number ++
    (BitVec.ofBool i.operands.rd.isSome ++ (BitVec.ofBool i.operands.rs1.isSome ++
      (BitVec.ofBool i.operands.rs2.isSome ++ (BitVec.ofBool i.operands.imm.isSome ++
        (encodeRegister i.operands.rd ++ (encodeRegister i.operands.rs1 ++
          (encodeRegister i.operands.rs2 ++ encodeImmediate i.operands.imm)))))))

/-- `encode(i)` of R79: defined when every present register index is in `0..255` and a present immediate is in
`-2^31..2^31-1`. -/
def encode (i : Instr) : Option Code :=
  if i.encodable then some (encodeWord i) else none

/-- The reason and place of the first word of an image that does not decode, or the whole program (R86, R230). -/
def decodeImageFrom (index : Nat) : List Code → Except (Nat × Code) (List Instr)
  | [] => .ok []
  | W :: image =>
    match decode W with
    | .error _ => .error (index, W)
    | .ok i =>
      match decodeImageFrom (index + 1) image with
      | .error e => .error e
      | .ok p => .ok (i :: p)

/-- Decoding of a binary image, word by word from index 0 (R86). -/
def decodeImage (image : List Code) : Except (Nat × Code) (List Instr) := decodeImageFrom 0 image

/-- What `decode` reads from the word whose bits are `w` as spec/opcode_table.json numbers them. Every row of the
table is one 64-bit word (R73) and the spec lays no image out in bytes (R53), so the bits are the word's own; bits
above `nbits` are 0. -/
def decodeTableWord (nbits w : Nat) : Option Instr :=
  if nbits ≤ 64 then
    match decode (BitVec.ofNat 64 (w % 2 ^ nbits)) with
    | .ok i => some i
    | .error _ => none
  else none

/-- The text of a register operand (R90: `r0` to `r31`, decimal). -/
def registerText (i : Int) : String := "r" ++ toString i

/-- The text of ADD, SUB and MUL, the two forms of the table of R90. -/
def arithmeticText (mnemonic : String) (o : Operands) : Option String :=
  match o.rd, o.rs1, o.rs2, o.imm with
  | some d, some a, some b, none =>
    some (mnemonic ++ " " ++ registerText d ++ ", " ++ registerText a ++ ", " ++ registerText b)
  | some d, some a, none, some v =>
    some (mnemonic ++ " " ++ registerText d ++ ", " ++ registerText a ++ ", #" ++ toString v)
  | _, _, _, _ => none

/-- The text of BEQ and BNE (R90: the operand is the raw displacement). -/
def branchText (mnemonic : String) (o : Operands) : Option String :=
  match o.rd, o.rs1, o.rs2, o.imm with
  | none, some a, some b, some v =>
    some (mnemonic ++ " " ++ registerText a ++ ", " ++ registerText b ++ ", " ++ toString v)
  | _, _, _, _ => none

/-- The assembly text of a record, `none` for one that the table of R90 cannot spell. -/
def assemblyText (i : Instr) : Option String :=
  if i.operands.registersNamed then
    match i with
    | .add o => arithmeticText "ADD" o
    | .sub o => arithmeticText "SUB" o
    | .mul o => arithmeticText "MUL" o
    | .ld ⟨some d, none, none, some a⟩ => some ("LD " ++ registerText d ++ ", [" ++ toString a ++ "]")
    | .ld _ => none
    | .st ⟨none, some r, none, some a⟩ => some ("ST " ++ registerText r ++ ", [" ++ toString a ++ "]")
    | .st _ => none
    | .beq o => branchText "BEQ" o
    | .bne o => branchText "BNE" o
    | .jmp ⟨none, none, none, some t⟩ => some ("JMP " ++ toString t)
    | .jmp _ => none
    | .int ⟨none, none, none, none⟩ => some "INT"
    | .int _ => none
  else none

/-- The mnemonic of an opcode (R80). -/
def Opcode.mnemonic : Opcode → String
  | .ADD => "ADD"
  | .SUB => "SUB"
  | .MUL => "MUL"
  | .LD => "LD"
  | .ST => "ST"
  | .BEQ => "BEQ"
  | .BNE => "BNE"
  | .JMP => "JMP"
  | .INT => "INT"

/-- A present field in record notation, a field not listed being absent (R91). -/
def fieldText (name : String) (f : Option Int) : List String :=
  match f with
  | some v => [name ++ "=" ++ toString v]
  | none => []

/-- Record notation (R91): the opcode followed by the present fields in braces (the characters 123 and 125). -/
def recordText (i : Instr) : String :=
  i.opcode.mnemonic ++ String.singleton (Char.ofNat 123) ++
    ", ".intercalate (fieldText "rd" i.operands.rd ++ fieldText "rs1" i.operands.rs1 ++
      fieldText "rs2" i.operands.rs2 ++ fieldText "imm" i.operands.imm) ++
    String.singleton (Char.ofNat 125)

end Sys2Proof
end

