-- ==== Sys2Proof/Machine/Sequencer.lean ====
section
/-! DEFINITION. The pipeline sequencer (R140 to R163 of spec/44_pipeline_sequencer.md), over whatever runs an
instruction in the slot being served. -/

namespace Sys2Proof.Machine

/-- Run the stage action of the entry in a slot, if the slot is occupied (R140, steps 2 to 4). -/
def serve (run : Instr → State → Result) (sl : Slot) (s : State) : Result :=
  match s.slots.get sl with
  | some e => run e.instr (serveSlot sl s)
  | none => .next (serveSlot sl s)

/-- Steps 2 to 4 of R140, in this exact order: WB commit, MEM access, EX execute. -/
def stageActions (run : Instr → State → Result) (s : State) : Result :=
  andThen (serve run .WB s) fun s1 => andThen (serve run .MEM s1) fun s2 => serve run .EX s2

/-- The stall cycle (R151): EX to MEM and MEM to WB only, EX becomes empty, nothing is fetched. -/
def stallShift (s : State) : State :=
  { s with
    slots := { s.slots with WB := s.slots.MEM, MEM := s.slots.EX, EX := none }
    cycle := s.cycle + 1
    active := none }

/-- `fetch()` (R52, R156): the entry fetched, if `pc` stands inside the program. -/
def fetchEntry (s : State) : Option Entry := s.prog[s.pc]?.map fun i => ⟨i, none⟩

/-- `pc` after a fetch attempt (R156, C3): one more when and only when an instruction was fetched. -/
def pcAfterFetch (s : State) : Nat := if s.pc < s.prog.length then s.pc + 1 else s.pc

/-- The normal advance (R155): every slot receives the old content of its younger neighbour. -/
def advanceShift (s : State) : State :=
  { s with
    slots := { IF := fetchEntry s, ID := s.slots.IF, EX := s.slots.ID, MEM := s.slots.EX, WB := s.slots.MEM }
    pc := pcAfterFetch s
    cycle := s.cycle + 1
    active := none }

/-- Steps 5 and 6 of R140, reached only if EX has not ended the step: the hazard check, then the normal advance. -/
def finishStep (s : State) : State :=
  match s.active with
  | none => s
  | some _ => if hazard s then stallShift s else advanceShift s

/-- `step()` of R140, one clock cycle, with the preconditions of R163. -/
def clockCycle (run : Instr → State → Result) (s : State) : Result :=
  match s.fault with
  | some code => .refused (.faulted code)
  | none =>
    if s.loaded then
      if s.pending then .next (interruptEntry s)
      else andThen (stageActions run s) fun s' => .next (finishStep s')
    else .refused .noProgram

/-- `isFinished()` (R160): no instruction occupies any slot and `pc` has reached the end of the program. -/
def isFinished (s : State) : Bool := decide (s.slots = Slots.empty) && decide (s.prog.length ≤ s.pc)

/-- The program that ends with instruction `i` at index `k`, its rest as before; indices that were past its end and
below `k` hold `i` as well. -/
def putInstruction (p : List Instr) (k : Nat) (i : Instr) : List Instr :=
  p.take k ++ (List.replicate (k - p.length) i ++ [i])

/-- The state in which the very next step fetches `i` (assumption 5): `i` is the last instruction of the program and
stands at `pc`, and nothing that would keep a step from fetching (R156) is there: no fault, no pending interrupt, no
entry in a slot. -/
def placeForFetch (i : Instr) (s : State) : State :=
  { s with
    prog := putInstruction s.prog s.pc i
    slots := Slots.empty
    pending := false
    fault := none
    loaded := true
    active := none }

/-- The slot in which an instruction has its first action (R147): MEM for LD and ST, EX for the others. -/
def firstActionIn : Instr → Slot
  | .add _ | .sub _ | .mul _ | .beq _ | .bne _ | .jmp _ | .int _ => .EX
  | .ld _ | .st _ => .MEM

/-- The slots with one entry in the given slot and no other. -/
def Slots.only (sl : Slot) (e : Entry) : Slots :=
  match sl with
  | .IF => ⟨some e, none, none, none, none⟩
  | .ID => ⟨none, some e, none, none, none⟩
  | .EX => ⟨none, none, some e, none, none⟩
  | .MEM => ⟨none, none, none, some e, none⟩
  | .WB => ⟨none, none, none, none, some e⟩

/-- The state in which the very next step runs `i` (assumption 5): `placeForFetch` after the fetch (R156) and the
shifts (R155) that carry `i` to its first action, the cycles they take left out. -/
def placeForRun (i : Instr) (s : State) : State :=
  { placeForFetch i s with
    slots := Slots.only (firstActionIn i) ⟨i, none⟩
    pc := s.pc + 1 }

/-- The same for an encoded instruction; an image with a word that does not decode is refused and changes nothing
(R86). -/
def placeCode (place : Instr → State → State) (nbits w : Nat) (s : State) : State :=
  match decodeTableWord nbits w with
  | some i => place i s
  | none => s

end Sys2Proof.Machine
end

