-- ==== Sys2Proof/Machine/Step.lean ====
section
/-! DEFINITION. One step: one clock cycle (R14, R140), with `exec` running the stage actions. -/

namespace Sys2Proof.Machine

/-- `step()` of R140. -/
def step (s : State) : Host.Outcome State Fault Refusal := clockCycle exec s

/-- `s` with the instruction whose bits are `w` placed where the very next step fetches it into IF (assumption 5). -/
def State.withProgramWord (s : State) (nbits w : Nat) : State := placeCode placeForFetch nbits w s

/-- `s` with the instruction whose bits are `w` placed, fetched and carried to the slot where the very next step runs
it (assumption 5). -/
def State.withFetchWord (s : State) (nbits w : Nat) : State := placeCode placeForRun nbits w s

end Sys2Proof.Machine
end

