-- ==== Sys2Proof/Machine/HostInterface.lean ====
section
/-! DEFINITION. The host's operations (R15, R221 to R224 of spec/60_exceptions.md): construction, loading a program,
stepping, the snapshots, and the interrupt controller (R200 to R205). Each is atomic and happens between steps. -/

namespace Sys2Proof.Machine

/-- Uninterpreted: what the spec leaves unspecified of the state between construction and the first load (R231, D21,
U10). Assumption 6. -/
opaque unspecifiedBeforeLoad : Params → State

/-- Uninterpreted: what the spec leaves unspecified of the state after a faulting step (R190, D9, U9). Assumption 7. -/
opaque unspecifiedAfterFault : State → Fault → State

/-- `construct` (R221, R231): the geometry is validated (R170); registers zero, cache and FIFO empty, no program.
Neither R231 nor R37 says what the fault status is before the first load: `none` is the model's reading of R35
(DEDUCED, assumption 6). The rest is left open until the first load. -/
def construct (capacity blockSize assoc : Int) (svcRd : Fin 32) (svcAddr : Fin 1024)
    (imemSize irqDepth : Option Nat) (hazardAbsentMatch : Bool) : Except Fault State :=
  if geometryLegal capacity blockSize assoc then
    let p : Params := { cacheCapacity := capacity.toNat, blockSize := blockSize.toNat, assoc := assoc.toNat,
                        svcRd := svcRd, svcAddr := svcAddr, imemSize := imemSize, irqDepth := irqDepth,
                        hazardAbsentMatch := hazardAbsentMatch }
    .ok { unspecifiedBeforeLoad p with
          params := p
          regs := Vector.replicate 32 0
          prog := []
          cache := emptyCache p
          irqFifo := []
          fault := none
          loaded := false
          active := none }
  else .error (.configurationError capacity blockSize assoc)

/-- The longest program a load accepts: `IMEM_SIZE`, at most `PC_MAX` (R9, R230, D28). -/
def imemLimit (p : Params) : Nat :=
  match p.imemSize with
  | some n => min n 2147483647
  | none => 2147483647

/-- `loadProgram(p)` on a list of records (R230): the full reset, or a refusal that changes nothing. -/
def loadProgram (p : List Instr) (s : State) : Except Refusal State :=
  if p.length ≤ imemLimit s.params then .ok (State.afterLoad s.params s.irqFifo p)
  else .error (.programTooLong p.length)

/-- `trigger(tag)` (R201): append to the external FIFO, unless a finite one is full. -/
def trigger (t : Tag) (s : State) : Except Refusal State :=
  match s.params.irqDepth with
  | some depth =>
    if s.irqFifo.length < depth then .ok { s with irqFifo := s.irqFifo ++ [t] } else .error .fifoFull
  | none => .ok { s with irqFifo := s.irqFifo ++ [t] }

/-- `handleNext()` (R202): the earliest tag, removed, or none if empty. -/
def handleNext (s : State) : Option Tag × State :=
  match s.irqFifo with
  | t :: rest => (some t, { s with irqFifo := rest })
  | [] => (none, s)

/-- The words of a memory window `lo .. hi` within `0 .. MEMSIZE-1` (R222): no cache access, no counter. -/
def memoryWindow (s : State) (lo hi : Fin 1024) : List Word :=
  (List.range (hi.val + 1 - lo.val)).map fun k => memRead s (lo.val + k)

/-- The instruction in each slot, youngest slot first (R222). -/
def occupancy (s : State) : List (Option Instr) :=
  [s.slots.IF, s.slots.ID, s.slots.EX, s.slots.MEM, s.slots.WB].map fun e => e.map Entry.instr

/-- The state a faulting step leaves (R190, R35): the fault status is set, `cycle` is not added to (R190, D9), the
interrupt controller is untouched (R34, R204), the construction parameters never change (R170), a load has completed,
and everything else is unspecified. Assumptions 7 and 8. -/
def afterFault (s : State) (f : Fault) (code : FaultCode) : State :=
  { unspecifiedAfterFault s f with
    params := s.params
    cycle := s.cycle
    irqFifo := s.irqFifo
    fault := some code
    loaded := true
    active := none }

/-- The name a fault records in the fault status (R191). -/
def Fault.code : Fault → FaultCode
  | .configurationError _ _ _ => .configurationError
  | .registerBounds _ => .registerBounds
  | .pcBounds _ => .pcBounds
  | .memoryBounds _ => .memoryBounds
  | .missingOperand _ _ => .missingOperand
  | .illegalInstruction _ _ => .illegalInstruction

/-- The numeric codes of R191. -/
def FaultCode.number : FaultCode → Nat
  | .configurationError => 1
  | .registerBounds => 2
  | .pcBounds => 3
  | .memoryBounds => 4
  | .missingOperand => 5
  | .illegalInstruction => 6

/-- The host operations on a constructed engine (R221). -/
inductive Operation where
  | loadProgram (p : List Instr)
  | loadImage (image : List Code)
  | step
  | isFinished
  | registers
  | memoryWindow (lo hi : Fin 1024)
  | cacheContents
  | occupancy
  | counters
  | trigger (tag : Tag)
  | handleNext
  | peek
  | setPending
deriving DecidableEq, Repr

/-- What an operation reports to the host (R221). -/
inductive Reply where
  | done
  | flag (b : Bool)
  | words (ws : List Word)
  | sets (c : Cache)
  | slots (is : List (Option Instr))
  | counts (cycle hits misses : Nat)
  | tag (t : Option Tag)
  | tags (ts : List Tag)
  | fault (f : Fault)
  | refused (r : Refusal)
deriving DecidableEq, Repr

/-- An operation that is performed or refused; a refused one changes nothing. -/
def orRefused (s : State) (r : Except Refusal State) : State × Reply :=
  match r with
  | .ok s' => (s', .done)
  | .error x => (s, .refused x)

/-- `loadProgram` on a binary image (R86, R230): decoded whole before anything changes. -/
def loadImage (image : List Code) (s : State) : State × Reply :=
  match decodeImage image with
  | .ok p => orRefused s (loadProgram p s)
  | .error (k, W) => (s, .fault (.illegalInstruction k W))

/-- `step()` as the host sees it (R190, R221): a faulting step reports the fault and sets the fault status. -/
def stepOperation (s : State) : State × Reply :=
  match Sys2Proof.Machine.step s with
  | .next s' => (s', .done)
  | .fault f => (afterFault s f (Fault.code f), .fault f)
  | .refused r => (s, .refused r)

/-- One host operation (R221, R223): the state it leaves and what it reports. The snapshots (R222), `isFinished()`
(R160) and `peek()` (R203) change nothing. -/
def perform (op : Operation) (s : State) : State × Reply :=
  match op with
  | .loadProgram p => orRefused s (Sys2Proof.Machine.loadProgram p s)
  | .loadImage image => Sys2Proof.Machine.loadImage image s
  | .step => stepOperation s
  | .isFinished => (s, .flag (Sys2Proof.Machine.isFinished s))
  | .registers => (s, .words s.regs.toList)
  | .memoryWindow lo hi => (s, .words (Sys2Proof.Machine.memoryWindow s lo hi))
  | .cacheContents => (s, .sets s.cache)
  | .occupancy => (s, .slots (Sys2Proof.Machine.occupancy s))
  | .counters => (s, .counts s.cycle s.hits s.misses)
  | .trigger t => orRefused s (Sys2Proof.Machine.trigger t s)
  | .handleNext => ((Sys2Proof.Machine.handleNext s).2, .tag (Sys2Proof.Machine.handleNext s).1)
  | .peek => (s, .tags s.irqFifo)
  | .setPending => (raisePending s, .done)

end Sys2Proof.Machine
end

