-- ==== Sys2Proof/Safety.lean ====
section
/-! DEFINITION. The shapes of a step (R140), the invariant of the engine between steps, and what a safe step is. -/

namespace Sys2Proof.Machine

/-- The shapes of a step that does not fault, named by where it ends (R140). -/
inductive Shape where
  | frozen | flush | stall | advance
deriving DecidableEq, Repr

/-- The shape of the step from `s`, `none` where the step faults or is refused (R140, R158 (g)). -/
def stepShape (s : State) : Option Shape :=
  if s.fault.isSome || !s.loaded then none
  else if s.pending then some .frozen
  else
    match stageActions exec s with
    | .next s' =>
      match s'.active with
      | none => some .flush
      | some _ => if hazard s' then some .stall else some .advance
    | .fault _ => none
    | .refused _ => none

/-- May a step be called (R163), and will it be an ordinary one, not an interrupt entry (R141)? -/
def State.ready (s : State) : Prop := s.fault = none ∧ s.loaded = true ∧ s.pending = false

/-- An instruction whose WB action commits a result (R143). -/
def commitsResult : Instr → Bool
  | .add _ | .sub _ | .mul _ | .ld _ => true
  | .st _ | .beq _ | .bne _ | .jmp _ | .int _ => false

/-- An instruction whose EX action latches a result (R100 to R102). -/
def latchesInEX : Instr → Bool
  | .add _ | .sub _ | .mul _ => true
  | .ld _ | .st _ | .beq _ | .bne _ | .jmp _ | .int _ => false

/-- An instruction that always ends the step in EX, so that no later slot ever holds it (R147: "never there"). -/
def endsInEX : Instr → Bool
  | .jmp _ | .int _ => true
  | .add _ | .sub _ | .mul _ | .ld _ | .st _ | .beq _ | .bne _ => false

/-- What R29 and R147 say of an entry in MEM: an arithmetic one has its latch written, JMP and INT are never there. -/
def entryMEMWf (e : Entry) : Bool :=
  !endsInEX e.instr && (!latchesInEX e.instr || e.result.isSome)

/-- What R29 and R147 say of an entry in WB: one that commits has its latch written, JMP and INT are never there. -/
def entryWBWf (e : Entry) : Bool :=
  !endsInEX e.instr && (!commitsResult e.instr || e.result.isSome)

/-- The invariant of a constructed engine between steps. -/
structure State.Inv (s : State) : Prop where
  /-- The geometry is legal (R170). -/
  geometry : geometryLegal s.params.cacheCapacity s.params.blockSize s.params.assoc = true
  /-- Data memory is in its canonical form. -/
  memory : s.mem.wf = true
  /-- The cache has `NUM_SETS` sets of at most `ASSOC` valid lines with distinct tags (R33, R180). -/
  cache : cacheWf s.params s.cache = true
  /-- `pc` stays in its domain (R22). -/
  pc : s.pc ≤ 2147483647
  /-- The program fits (R31). -/
  prog : s.prog.length ≤ 2147483647
  /-- Latches are written in time, and JMP and INT never reach MEM (R29, R147). -/
  slotMEM : s.slots.MEM.all entryMEMWf = true
  /-- The same for WB. -/
  slotWB : s.slots.WB.all entryWBWf = true
  /-- No stage action is under way (R14). -/
  idle : s.active = none

/-- What R125 says of the entry `ahead` places behind the fetch: it is the service instruction, or stands at an index
`k` of the program with `pc = min(k + ahead, N)`. -/
def fetchedAhead (s : State) (ahead : Nat) (slot : Option Entry) : Prop :=
  ∀ e, slot = some e → e.instr = serviceInstruction s.params ∨
    ∃ k : Nat, s.prog[k]? = some e.instr ∧ s.pc = min (k + ahead) s.prog.length

/-- The lemma of R125 for the three slots an instruction passes before it executes. -/
def State.fetchTracked (s : State) : Prop :=
  fetchedAhead s 1 s.slots.IF ∧ fetchedAhead s 2 s.slots.ID ∧ fetchedAhead s 3 s.slots.EX

/-- `n` steps, stopping at the first fault or refusal. -/
def run : Nat → State → Result
  | 0, s => .next s
  | n + 1, s => andThen (step s) (run n)

/-- A state without its cache and the two counters the cache determines (R111: "the two counters and nothing else that
a program can see"). -/
def State.withoutCache (s : State) : State := { s with cache := [], hits := 0, misses := 0 }

/-- A result with a function applied to the state it leaves. -/
def mapNext (f : State → State) (r : Result) : Result := andThen r fun s => .next (f s)

/-- The result of R100 to R102 for the two operand values, `none` for an instruction that latches none in EX. -/
def arithmeticResult (i : Instr) (a b : Word) : Option Word :=
  match i with
  | .add _ => some (a + b)
  | .sub _ => some (a - b)
  | .mul _ => some (a * b)
  | .ld _ | .st _ | .beq _ | .bne _ | .jmp _ | .int _ => none

/-- Is a conditional branch taken on the two register values (R120, R121)? `none` for every other instruction. -/
def branchTaken (i : Instr) (a b : Word) : Option Bool :=
  match i with
  | .beq _ => some (decide (a = b))
  | .bne _ => some (decide (a ≠ b))
  | .add _ | .sub _ | .mul _ | .ld _ | .st _ | .jmp _ | .int _ => none

/-- The value the second operand of an arithmetic instruction has (R103). -/
def hasSecondOperand (o : Operands) (s : State) (b : Word) : Prop :=
  (∃ r : Fin 32, o.rs2 = some (r.val : Int) ∧ b = s.regs.get r) ∨
    (o.rs2 = none ∧ ∃ n : Int, o.imm = some n ∧ b = BitVec.ofInt 32 n)

/-- An index that names no register (R192). -/
def outOfRegisters (i : Int) : Prop := i < 0 ∨ 32 ≤ i

/-- The faults that a step can raise (R191: codes 1 and 6 "are raised outside `step()`"). -/
def Fault.raisedByStep : Fault → Bool
  | .registerBounds _ | .pcBounds _ | .memoryBounds _ | .missingOperand _ _ => true
  | .configurationError _ _ _ | .illegalInstruction _ _ => false

/-- The host operations that only read (R222). -/
def Operation.reads : Operation → Bool
  | .isFinished | .registers | .memoryWindow _ _ | .cacheContents | .occupancy | .counters | .peek => true
  | .loadProgram _ | .loadImage _ | .step | .trigger _ | .handleNext | .setPending => false

/-- Hand `n` tags to the host, earliest first (R202). -/
def drain : Nat → State → List (Option Tag) × State
  | 0, s => ([], s)
  | n + 1, s => ((handleNext s).1 :: (drain n (handleNext s).2).1, (drain n (handleNext s).2).2)

/-- Trigger a list of tags one after the other (R201). -/
def triggerAll : List Tag → State → Except Refusal State
  | [], s => .ok s
  | t :: ts, s =>
    match trigger t s with
    | .ok s' => triggerAll ts s'
    | .error r => .error r

/-- The cache after a list of accesses, each with the memory it finds (R171). -/
def accessAll (p : Params) : Cache → List (Memory × Nat) → Cache
  | c, [] => c
  | c, (m, a) :: rest => accessAll p (cacheAccess p c m a).2 rest

/-- Those of a list of accesses that miss, in their order (R172). -/
def accessesMissed (p : Params) : Cache → List (Memory × Nat) → List (Memory × Nat)
  | _, [] => []
  | c, (m, a) :: rest =>
    if (cacheAccess p c m a).1 then accessesMissed p (cacheAccess p c m a).2 rest
    else (m, a) :: accessesMissed p (cacheAccess p c m a).2 rest

/-- A safe step: it answers a next state (R190: "a model treats a faulted run as failed"). -/
def State.stepsSafely (s : State) : Prop := ∃ s', step s = .next s'

end Sys2Proof.Machine
end

