-- ==== Sys2Proof/Certificates/Slice0/Obligations.lean ====
section
/-! DEFINITION. The statements for the provers. Each docstring says which rule of spec/ it formalises. -/

open Sys2Proof Sys2Proof.Machine

/-- R79: `encode` is defined exactly on the records whose indices and immediate fit, it sets the opcode number, the
presence bits and the value fields, and it is the inverse of `decode` in both directions. -/
def Obligations.EncodeAndDecodeAgree : Prop :=
  (∀ i : Instr, (∃ W, encode i = some W) ↔
    (∀ r, i.operands.rd = some r → 0 ≤ r ∧ r ≤ 255) ∧ (∀ r, i.operands.rs1 = some r → 0 ≤ r ∧ r ≤ 255) ∧
      (∀ r, i.operands.rs2 = some r → 0 ≤ r ∧ r ≤ 255) ∧
      (∀ v, i.operands.imm = some v → -2147483648 ≤ v ∧ v ≤ 2147483647)) ∧
  (∀ (i : Instr) (W : Code), encode i = some W →
    opcField W = i.opcode.number ∧ rdPresent W = i.operands.rd.isSome ∧ rs1Present W = i.operands.rs1.isSome ∧
      rs2Present W = i.operands.rs2.isSome ∧ immPresent W = i.operands.imm.isSome ∧
      ((rdField W).toNat : Int) = i.operands.rd.getD 0 ∧ ((rs1Field W).toNat : Int) = i.operands.rs1.getD 0 ∧
      ((rs2Field W).toNat : Int) = i.operands.rs2.getD 0 ∧ (immField W).toInt = i.operands.imm.getD 0) ∧
  (∀ (i : Instr) (W : Code), encode i = some W → decode W = .ok i) ∧
  (∀ (W : Code) (i : Instr), decode W = .ok i → encode i = some W)

/-- Sections 2 and 4 of 30_encoding.md: a word fails to decode exactly when its opcode number is 0 or 10 to 15, or a
presence bit is 0 above a value field that is not all zeros. -/
def Obligations.DecodeRejectsExactlyTheIllegalWords : Prop :=
  ∀ W : Code, (∃ e, decode W = .error e) ↔
    ((opcField W).toNat = 0 ∨ 10 ≤ (opcField W).toNat) ∨
      (W.getLsbD 59 = false ∧ W.extractLsb' 48 8 ≠ 0) ∨ (W.getLsbD 58 = false ∧ W.extractLsb' 40 8 ≠ 0) ∨
      (W.getLsbD 57 = false ∧ W.extractLsb' 32 8 ≠ 0) ∨ (W.getLsbD 56 = false ∧ W.extractLsb' 0 32 ≠ 0)

/-- Words written out in section 6 of 30_encoding.md, one for each opcode, decode to the records they stand for. -/
def Obligations.WrittenOutWordsDecode : Prop :=
  decode 0x1E03010200000000 = .ok (.add ⟨some 3, some 1, some 2, none⟩) ∧
  decode 0x1D02010000000005 = .ok (.add ⟨some 2, some 1, none, some 5⟩) ∧
  decode 0x2E01010200000000 = .ok (.sub ⟨some 1, some 1, some 2, none⟩) ∧
  decode 0x3D040400FFFFFFFD = .ok (.mul ⟨some 4, some 4, none, some (-3)⟩) ∧
  decode 0x4901000000000005 = .ok (.ld ⟨some 1, none, none, some 5⟩) ∧
  decode 0x550002000000012C = .ok (.st ⟨none, some 2, none, some 300⟩) ∧
  decode 0x6700000000000001 = .ok (.beq ⟨none, some 0, some 0, some 1⟩) ∧
  decode 0x77000100FFFFFFFB = .ok (.bne ⟨none, some 1, some 0, some (-5)⟩) ∧
  decode 0x8100000000000004 = .ok (.jmp ⟨none, none, none, some 4⟩) ∧
  decode 0x9000000000000000 = .ok (.int ⟨none, none, none, none⟩) ∧
  decode 0x4928000000000003 = .ok (.ld ⟨some 40, none, none, some 3⟩)

/-- Section 4 of 30_encoding.md: a binary image is decoded before anything changes. One that decodes whole loads its
records; one with an illegal word is refused with the index and the word of the first, and changes nothing. -/
def Obligations.ImageLoadIsAllOrNothing : Prop :=
  ∀ (image : List Code) (s : State),
    (∀ p : List Instr, image.map decode = p.map Except.ok →
      loadImage image s = perform (.loadProgram p) s) ∧
    (∀ (before after : List Code) (W : Code) (e : DecodeError) (p : List Instr),
      image = before ++ W :: after → before.map decode = p.map Except.ok → decode W = .error e →
      loadImage image s = (s, .fault (.illegalInstruction before.length W)))

/-- Section 12 of 10_state.md and section 1 of 70_reset_and_hazards.md: the state after a load, from which a step is
possible, and what holds between construction and the first load. Two clauses rest on the model's own choices. A
program of any length is accepted up to `IMEM_SIZE`, where there is one, and `PC_MAX` (DEDUCED, assumption 10). Before
the first load the step is refused under the name `noProgram`, because the fault status is `none` there (DEDUCED,
assumption 6); the names of the refusals are the model's (assumption 21). -/
def Obligations.LoadGivesTheResetState : Prop :=
  (∀ (p : List Instr) (s : State), p.length ≤ 2147483647 → (∀ n, s.params.imemSize = some n → p.length ≤ n) →
    ∃ t, loadProgram p s = .ok t ∧
    (∀ r : Fin 32, t.regs.get r = 0) ∧
    (∀ a : Nat, a ≤ 259 → t.mem.read a = BitVec.ofNat 32 a) ∧
    (∀ a : Nat, 260 ≤ a → a ≤ 1023 → t.mem.read a = 0) ∧
    t.pc = 0 ∧ t.cycle = 0 ∧ t.hits = 0 ∧ t.misses = 0 ∧ t.pending = false ∧
    t.slots.IF = none ∧ t.slots.ID = none ∧ t.slots.EX = none ∧ t.slots.MEM = none ∧ t.slots.WB = none ∧
    t.cache.length = numSets s.params ∧ (∀ lines ∈ t.cache, lines = []) ∧ t.params = s.params ∧
    t.prog = p ∧ t.fault = none ∧ t.irqFifo = s.irqFifo ∧ t.loaded = true ∧
    ∃ u, step t = .next u ∧ u.slots.IF.map Entry.instr = p[0]? ∧ u.cycle = 1) ∧
  (∀ (capacity blockSize assoc : Int) (rd : Fin 32) (addr : Fin 1024) (imem irq : Option Nat) (absent : Bool)
    (s : State), construct capacity blockSize assoc rd addr imem irq absent = .ok s →
    (∀ r : Fin 32, s.regs.get r = 0) ∧ geometryLegal capacity blockSize assoc = true ∧ s.irqFifo = [] ∧
    step s = .refused .noProgram)

/-- The invariant holds at `State.reset`, which is the model's choice of the load of the empty program (assumption
4). -/
def Obligations.ResetMeetsTheInvariant : Prop := State.reset.Inv

/-- Every step keeps the invariant (sections 1, 6 and 8 of 10_state.md, section 6 of 44_pipeline_sequencer.md):
canonical memory, `pc` in its domain, the cache in the form of its data model, latches written in time, JMP and INT
never past EX. -/
def Obligations.StepKeepsTheInvariant : Prop :=
  ∀ s t : State, s.Inv → step s = .next t → t.Inv

/-- Every host operation that does not leave a fault keeps the invariant (section 5 of 60_exceptions.md). -/
def Obligations.HostOperationsKeepTheInvariant : Prop :=
  ∀ (op : Operation) (s : State), s.Inv → (perform op s).1.fault = none → (perform op s).1.Inv

/-- Section 7 of 44_pipeline_sequencer.md, the preconditions of `step()`: it is refused exactly when the fault status
is set or no load has completed, and then nothing changes. -/
def Obligations.StepIsRefusedExactlyWhenFaultedOrUnloaded : Prop :=
  ∀ s : State, ((∃ r, step s = .refused r) ↔ s.fault ≠ none ∨ s.loaded = false) ∧
    (∀ r, step s = .refused r → perform .step s = (s, .refused r))

/-- R142: every step that does not fault adds exactly 1 to `cycle`, no other host operation but a load changes it, and
so it counts the completed steps since the last load. -/
def Obligations.EveryStepAddsOneCycle : Prop :=
  (∀ s t : State, step s = .next t → t.cycle = s.cycle + 1) ∧
  (∀ (op : Operation) (s : State), op ≠ .step → (∀ p, op ≠ .loadProgram p) → (∀ image, op ≠ .loadImage image) →
    (perform op s).1.cycle = s.cycle) ∧
  (∀ (p : List Instr) (s t u : State) (n : Nat), loadProgram p s = .ok t → run n t = .next u → u.cycle = n)

/-- R141: the frozen cycle. It puts the service instruction in IF, clears the flag and counts one cycle, whatever the
slots hold and whatever fault a stage action would have raised, and it does not re-fire. When INT set the flag, every
slot is empty at entry. -/
def Obligations.InterruptEntryTouchesOnlyIF : Prop :=
  (∀ s : State, s.fault = none → s.loaded = true → s.pending = true →
    step s = .next { s with
      slots := { s.slots with
        IF := some ⟨.ld ⟨some (s.params.svcRd.val : Int), none, none, some (s.params.svcAddr.val : Int)⟩, none⟩ }
      pending := false
      cycle := s.cycle + 1
      active := none }) ∧
  (∀ s t : State, s.pending = true → step s = .next t → stepShape t ≠ some .frozen) ∧
  (∀ s t : State, s.pending = false → step s = .next t → t.pending = true → t.slots = ⟨none, none, none, none, none⟩)

/-- Section 1 of 44_pipeline_sequencer.md: a ready step runs `exec` on the entry in WB, then on the entry in MEM, then
on the entry in EX, each on the state the one before left and with its own slot being served, and finishes with the
hazard check and the shift unless EX has ended the step. -/
def Obligations.StepRunsTheStageActions : Prop :=
  ∀ s s1 s2 s3 : State, s.ready →
    (∀ e, s.slots.WB = some e → exec e.instr { s with active := some .WB } = .next s1) →
    (s.slots.WB = none → s1 = { s with active := some .WB }) →
    (∀ e, s1.slots.MEM = some e → exec e.instr { s1 with active := some .MEM } = .next s2) →
    (s1.slots.MEM = none → s2 = { s1 with active := some .MEM }) →
    (∀ e, s2.slots.EX = some e → exec e.instr { s2 with active := some .EX } = .next s3) →
    (s2.slots.EX = none → s3 = { s2 with active := some .EX }) →
    step s = .next (if s3.active = none then s3 else if hazard s3 then stallShift s3 else advanceShift s3)

/-- The decoded word placed at `pc` by `withProgramWord` (the model's placement, assumption 5) is the entry the very
next step puts in IF, and that step does nothing else but count. -/
def Obligations.PlacedWordEntersIF : Prop :=
  ∀ (s : State) (nbits w : Nat) (i : Instr), decodeTableWord nbits w = some i →
    ∃ t, step (s.withProgramWord nbits w) = .next t ∧
      t.slots = ⟨some ⟨i, none⟩, none, none, none, none⟩ ∧ t.pc = s.pc + 1 ∧ t.cycle = s.cycle + 1 ∧
      t.regs = s.regs ∧ t.mem = s.mem ∧ t.cache = s.cache ∧ t.hits = s.hits ∧ t.misses = s.misses

/-- R155 and R156: what an advance step fetches and shifts, that a fetch beyond the program's end is no error, and that
no other shape of step fetches. A word of the loaded image at `pc` enters IF as the instruction it decodes to. -/
def Obligations.AdvanceFetchesAndShifts : Prop :=
  (∀ s : State, stepShape s = some .advance → ∃ s' t, stageActions exec s = .next s' ∧ step s = .next t ∧
    t = { s' with
      slots := { IF := s.prog[s.pc]?.map (fun i => ⟨i, none⟩), ID := s.slots.IF, EX := s.slots.ID,
                 MEM := s'.slots.EX, WB := s'.slots.MEM }
      pc := if s.pc < s.prog.length then s.pc + 1 else s.pc
      cycle := s.cycle + 1
      active := none } ∧
    s'.slots.EX.map Entry.instr = s.slots.EX.map Entry.instr ∧
    s'.slots.MEM.map Entry.instr = s.slots.MEM.map Entry.instr) ∧
  (∀ (s t : State) (image : List Code) (W : Code) (i : Instr), stepShape s = some .advance → step s = .next t →
    image.map decode = s.prog.map Except.ok → image[s.pc]? = some W → decode W = .ok i →
    t.slots.IF = some ⟨i, none⟩ ∧ t.pc = s.pc + 1) ∧
  (∀ s t : State, step s = .next t → stepShape s = some .frozen ∨ stepShape s = some .stall → t.pc = s.pc) ∧
  (∀ s t : State, step s = .next t → stepShape s = some .flush → t.slots.IF = none)

/-- R150 and R151: the hazard condition, under either setting of `HAZARD_ABSENT_MATCH`, and the stall cycle. -/
def Obligations.StallMovesOnlyEXAndMEM : Prop :=
  (∀ s s' : State, s.ready → stageActions exec s = .next s' → s'.active ≠ none →
    (stepShape s = some .stall ↔ ∃ d x, s.slots.ID = some d ∧ s.slots.EX = some x ∧
      ((∃ r, d.instr.operands.rs1 = some r ∧ x.instr.operands.rd = some r) ∨
        (d.instr.operands.rs1 = none ∧ x.instr.operands.rd = none ∧ s.params.hazardAbsentMatch = true)))) ∧
  (∀ s : State, stepShape s = some .stall → ∃ s', stageActions exec s = .next s' ∧
    step s = .next { s' with
      slots := { IF := s.slots.IF, ID := s.slots.ID, EX := none, MEM := s'.slots.EX, WB := s'.slots.MEM }
      pc := s.pc
      cycle := s.cycle + 1
      active := none })

/-- Section 4 of 44_pipeline_sequencer.md: after a stall cycle EX is empty, so the next step is an advance, which takes
the consumer to EX and the producer to WB. -/
def Obligations.StallIsFollowedByAnAdvance : Prop :=
  ∀ s t u : State, stepShape s = some .stall → step s = .next t → step t = .next u →
    t.slots.EX = none ∧ stepShape t = some .advance ∧ u.slots.EX = s.slots.ID ∧
      u.slots.WB.map Entry.instr = s.slots.EX.map Entry.instr

/-- Section 3 of 44_pipeline_sequencer.md and 40_arithmetic.md: the EX action of an arithmetic instruction reads the
register file as the WB action of the same step leaves it, through either source. The three operations are the
spec's own general knowledge (assumption 17). -/
def Obligations.CommitIsSeenInTheSameStep : Prop :=
  ∀ (s : State) (p x : Entry) (d c : Fin 32) (b v w : Word), s.ready →
    s.slots.WB = some p → commitsResult p.instr = true → p.instr.operands.rd = some (d.val : Int) →
    p.result = some v → s.slots.MEM = none → s.slots.EX = some x → x.instr.operands.rs1 = some (c.val : Int) →
    hasSecondOperand x.instr.operands { s with regs := s.regs.set d.val v d.isLt } b →
    arithmeticResult x.instr (if c = d then v else s.regs.get c) b = some w →
    ∃ t, step s = .next t ∧ t.slots.MEM = some ⟨x.instr, some w⟩ ∧ t.regs = s.regs.set d.val v d.isLt

/-- Section 3 of 70_reset_and_hazards.md and 42_control_transfer.md ("a branch whose `rs2` is that `rd` does not stall
and compares the old value of `rs2`"), the stale second operand: an arithmetic instruction or a branch in EX reads
through `rs2` the value its register had before the instruction in MEM, and that instruction has not committed yet.
The arithmetic one latches the result on the old value, the branch decides on it; a taken one loses the instruction in
MEM. The three operations and the condition of BNE are the spec's own general knowledge (assumptions 17 and 18). -/
def Obligations.SecondOperandCanBeStale : Prop :=
  ∀ (s t : State) (p x : Entry) (d c : Fin 32), s.ready → s.slots.WB = none →
    s.slots.MEM = some p → commitsResult p.instr = true → p.instr.operands.rd = some (d.val : Int) →
    s.slots.EX = some x → x.instr.operands.rs1 = some (c.val : Int) → x.instr.operands.rs2 = some (d.val : Int) →
    step s = .next t →
    (∀ w : Word, arithmeticResult x.instr (s.regs.get c) (s.regs.get d) = some w →
      t.slots.MEM = some ⟨x.instr, some w⟩ ∧ t.regs = s.regs ∧ t.slots.WB.map Entry.instr = some p.instr) ∧
    (branchTaken x.instr (s.regs.get c) (s.regs.get d) = some false →
      t.slots.MEM = some x ∧ t.regs = s.regs ∧ t.slots.WB.map Entry.instr = some p.instr) ∧
    (branchTaken x.instr (s.regs.get c) (s.regs.get d) = some true →
      (∃ v : Int, x.instr.operands.imm = some v ∧ (t.pc : Int) = (s.pc : Int) + v) ∧
        t.slots = ⟨none, none, none, none, none⟩ ∧ t.regs = s.regs)

/-- R146: a flush empties all five slots, after that step's WB commit and MEM access, whose effects stay; one cycle is
counted, and nothing but `pc` or the pending flag changes beside. -/
def Obligations.FlushEmptiesEverySlot : Prop :=
  ∀ s t : State, stepShape s = some .flush → step s = .next t →
    (∃ e, s.slots.EX = some e ∧ (e.instr.opcode = .BEQ ∨ e.instr.opcode = .BNE ∨ e.instr.opcode = .JMP ∨
      e.instr.opcode = .INT) ∧ (e.instr.opcode = .INT → t.pending = true ∧ t.pc = s.pc) ∧
      (e.instr.opcode ≠ .INT → t.pending = false)) ∧
    ∃ s1 s2, serve exec .WB s = .next s1 ∧ serve exec .MEM s1 = .next s2 ∧
      t = { s2 with
        slots := ⟨none, none, none, none, none⟩
        pc := t.pc
        pending := t.pending
        cycle := s.cycle + 1
        active := none }

/-- Section 3 of 70_reset_and_hazards.md and 42_control_transfer.md ("What a taken transfer destroys"): the
instruction immediately ahead of a taken transfer, a JMP or an INT never writes its destination register. The
registers are those that the commit of the entry in WB leaves, whatever that entry is; a load there has made its cache
access and counted it, and a store there has taken effect, with the register value that commit leaves. -/
def Obligations.PredecessorOfATransferLosesItsWrite : Prop :=
  ∀ (s t : State) (p : Entry), s.mem.wf = true → stepShape s = some .flush → step s = .next t →
    s.slots.MEM = some p →
    t.slots = ⟨none, none, none, none, none⟩ ∧
    (∀ (e : Entry) (r : Fin 32) (v : Word), s.slots.WB = some e → commitsResult e.instr = true →
      e.instr.operands.rd = some (r.val : Int) → e.result = some v → t.regs = s.regs.set r.val v r.isLt) ∧
    ((∀ e, s.slots.WB = some e → commitsResult e.instr = false) → t.regs = s.regs) ∧
    (commitsResult p.instr = true → t.mem = s.mem) ∧
    (∀ (o : Operands) (a : Fin 1024), p.instr = .ld o → o.imm = some (a.val : Int) →
      t.cache = (cacheAccess s.params s.cache s.mem a.val).2 ∧
      t.hits = (if (cacheAccess s.params s.cache s.mem a.val).1 then s.hits + 1 else s.hits) ∧
      t.misses = (if (cacheAccess s.params s.cache s.mem a.val).1 then s.misses else s.misses + 1)) ∧
    (p.instr.opcode ≠ .LD → t.cache = s.cache ∧ t.hits = s.hits ∧ t.misses = s.misses) ∧
    (∀ (o : Operands) (a : Fin 1024) (r : Fin 32), p.instr = .st o → o.imm = some (a.val : Int) →
      o.rs1 = some (r.val : Int) → t.mem.read a.val = t.regs.get r)

/-- R160 and R162: the run-to-completion predicate is a pure read, true of the empty program right after its load, and a
step of a finished engine is an ordinary step that only counts, unless an interrupt is pending. -/
def Obligations.FinishedEngineMayBeStepped : Prop :=
  (∀ s : State, isFinished s = true ↔ s.slots.IF = none ∧ s.slots.ID = none ∧ s.slots.EX = none ∧
    s.slots.MEM = none ∧ s.slots.WB = none ∧ s.pc ≥ s.prog.length) ∧
  (∀ s : State, perform .isFinished s = (s, .flag (isFinished s))) ∧
  (∀ s t : State, loadProgram [] s = .ok t → isFinished t = true) ∧
  (∀ s : State, isFinished s = true → s.ready → step s = .next { s with cycle := s.cycle + 1, active := none }) ∧
  (∀ s : State, isFinished s = true → s.fault = none → s.loaded = true → s.pending = true →
    stepShape s = some .frozen)

/-- 42_control_transfer.md, the value of `pc` seen by a branch: the entry in EX that came from index `k` of the
program executes with `pc = min(k + 3, N)`. It is an invariant of the fetch: a load establishes it, every step and the
host's `setPending()` keep it; and so a taken branch continues at `min(k + 3, N) + imm`, an INT at `min(k + 3, N)`. -/
def Obligations.PcSeenInEXIsThreeAhead : Prop :=
  (∀ (p : List Instr) (s t : State), loadProgram p s = .ok t → t.fetchTracked) ∧
  (∀ s t : State, s.fetchTracked → step s = .next t → t.fetchTracked) ∧
  (∀ s : State, s.fetchTracked → (perform .setPending s).1.fetchTracked) ∧
  (∀ (s t : State) (e : Entry), s.fetchTracked → stepShape s = some .flush → step s = .next t →
    s.slots.EX = some e →
    (∀ d : Int, e.instr.opcode = .BEQ ∨ e.instr.opcode = .BNE → e.instr.operands.imm = some d →
      ∃ k : Nat, s.prog[k]? = some e.instr ∧ (t.pc : Int) = (min (k + 3) s.prog.length : Nat) + d) ∧
    (e.instr.opcode = .INT →
      ∃ k : Nat, s.prog[k]? = some e.instr ∧ t.pc = min (k + 3) s.prog.length))

/-- Section 1 of 10_state.md: a step changes a register only through the WB action of ADD, SUB, MUL or LD, only the
one its `rd` names, and to the latched result. -/
def Obligations.RegistersChangeOnlyInWB : Prop :=
  ∀ (s t : State) (r : Fin 32), step s = .next t →
    (t.regs.get r ≠ s.regs.get r → s.pending = false ∧ ∃ e, s.slots.WB = some e ∧ commitsResult e.instr = true ∧
      e.instr.operands.rd = some (r.val : Int) ∧ e.result = some (t.regs.get r)) ∧
    (∀ e v, s.pending = false → s.slots.WB = some e → commitsResult e.instr = true →
      e.instr.operands.rd = some (r.val : Int) → e.result = some v → t.regs.get r = v)

/-- Sections 1 and 4 of 20_memory.md: a step changes a word of data memory only through the MEM action of an ST at that
very address, and to the value its register holds after the WB action of the same step. -/
def Obligations.MemoryChangesOnlyByAStoreInMEM : Prop :=
  ∀ (s t : State) (a : Nat), s.mem.wf = true → step s = .next t → t.mem.read a ≠ s.mem.read a →
    s.pending = false ∧ ∃ e o, ∃ r : Fin 32, s.slots.MEM = some e ∧ e.instr = .st o ∧ o.imm = some (a : Int) ∧
      o.rs1 = some (r.val : Int) ∧ t.mem.read a = t.regs.get r

/-- Section 2 of 60_exceptions.md, the sources of the pending flag: only INT in EX and the host's `setPending()` raise
it. (A faulting step leaves it unspecified.) -/
def Obligations.PendingIsRaisedOnlyByIntOrTheHost : Prop :=
  (∀ s t : State, step s = .next t → t.pending = true →
    s.pending = false ∧ ∃ e o, s.slots.EX = some e ∧ e.instr = .int o) ∧
  (∀ (op : Operation) (s : State), op ≠ .step → op ≠ .setPending → (perform op s).1.pending = true →
    s.pending = true)

/-- No step that answers a next state changes the program (section 7 of 10_state.md), the external FIFO (section 9 of
10_state.md, section 2 of 60_exceptions.md), the construction parameters (section 1 of 45_cache.md), the fault status
(section 10 of 10_state.md) or the fact that a load has completed (section 7 of 44_pipeline_sequencer.md). -/
def Obligations.StepKeepsProgramFifoAndParameters : Prop :=
  ∀ s t : State, step s = .next t →
    t.prog = s.prog ∧ t.irqFifo = s.irqFifo ∧ t.params = s.params ∧ t.fault = s.fault ∧ t.loaded = s.loaded

/-- Section 2 of 60_exceptions.md: `step()` neither reads nor writes the external FIFO. -/
def Obligations.ExternalFifoNeverAffectsAStep : Prop :=
  ∀ (s : State) (q : List Tag),
    step { s with irqFifo := q } = mapNext (fun t => { t with irqFifo := q }) (step s)

/-- 41_load_store.md and section 5 of 45_cache.md: two states that differ in the cache and its two counters only step
alike, to states that differ in those only, or to the same fault. -/
def Obligations.CacheNeverReachesTheRest : Prop :=
  ∀ s s' : State, s.withoutCache = s'.withoutCache →
    mapNext State.withoutCache (step s) = mapNext State.withoutCache (step s')

/-- 41_load_store.md and section 5 of 45_cache.md: exactly one of the two counters goes up by one in a step whose MEM
action is a load's, and neither changes in any other. -/
def Obligations.CountersCountTheLoads : Prop :=
  ∀ s t : State, step s = .next t →
    ((s.pending = false ∧ ∃ e o, s.slots.MEM = some e ∧ e.instr = .ld o) →
      (t.hits = s.hits + 1 ∧ t.misses = s.misses) ∨ (t.hits = s.hits ∧ t.misses = s.misses + 1)) ∧
    (¬(s.pending = false ∧ ∃ e o, s.slots.MEM = some e ∧ e.instr = .ld o) →
      t.hits = s.hits ∧ t.misses = s.misses ∧ t.cache = s.cache)

/-- 40_arithmetic.md, the EX action of ADD, SUB and MUL: the sum, the difference (first operand minus second) or the
product of the two operand values is latched, and nothing else changes. The second operand is `rs2` if present, else
the immediate. The three operations are the spec's own general knowledge (assumption 17). -/
def Obligations.ArithmeticLatchesItsResult : Prop :=
  ∀ (i : Instr) (s : State) (r : Fin 32) (b v : Word), s.active = some .EX →
    i.operands.rs1 = some (r.val : Int) → hasSecondOperand i.operands s b →
    arithmeticResult i (s.regs.get r) b = some v →
    exec i s = .next { s with
      slots := { s.slots with EX := s.slots.EX.map fun e => ⟨e.instr, some v⟩ } }

/-- Section 3 of 44_pipeline_sequencer.md, the WB action of ADD, SUB, MUL and LD: the latched result goes to the
register `rd` names, whichever it is, and nothing else changes. -/
def Obligations.CommitWritesTheDestination : Prop :=
  ∀ (i : Instr) (s : State) (r : Fin 32) (e : Entry) (v : Word), s.active = some .WB → commitsResult i = true →
    i.operands.rd = some (r.val : Int) → s.slots.WB = some e → e.result = some v →
    exec i s = .next { s with regs := s.regs.set r.val v r.isLt }

/-- 40_arithmetic.md and section 1 of 60_exceptions.md: where ADD, SUB and MUL fault in EX, and where they and LD fault
in WB, with the checks in the order of the pseudocode. An `rs2` out of range does not fall back to the immediate. -/
def Obligations.ArithmeticAndCommitFaults : Prop :=
  (∀ (i : Instr) (s : State), s.active = some .EX → latchesInEX i = true →
    (i.operands.rs1 = none → exec i s = .fault (.missingOperand i.opcode .rs1)) ∧
    (∀ n, i.operands.rs1 = some n → outOfRegisters n → exec i s = .fault (.registerBounds n)) ∧
    (∀ r : Fin 32, i.operands.rs1 = some (r.val : Int) →
      (∀ n, i.operands.rs2 = some n → outOfRegisters n → exec i s = .fault (.registerBounds n)) ∧
      (i.operands.rs2 = none → i.operands.imm = none → exec i s = .fault (.missingOperand i.opcode .imm)))) ∧
  (∀ (i : Instr) (s : State), s.active = some .WB → commitsResult i = true →
    (i.operands.rd = none → exec i s = .fault (.missingOperand i.opcode .rd)) ∧
    (∀ n e v, i.operands.rd = some n → outOfRegisters n → s.slots.WB = some e → e.result = some v →
      exec i s = .fault (.registerBounds n)))

/-- 41_load_store.md, the MEM action of LD: the loaded word is `mem[imm]` whether the access hits or misses, exactly one
counter goes up, the cache is as the access leaves it, and nothing else changes. -/
def Obligations.LoadReadsMemory : Prop :=
  ∀ (o : Operands) (s : State) (a : Fin 1024), s.active = some .MEM → o.imm = some (a.val : Int) →
    exec (.ld o) s = .next { s with
      slots := { s.slots with MEM := s.slots.MEM.map fun e => ⟨e.instr, some (s.mem.read a.val)⟩ }
      cache := (cacheAccess s.params s.cache s.mem a.val).2
      hits := if (cacheAccess s.params s.cache s.mem a.val).1 then s.hits + 1 else s.hits
      misses := if (cacheAccess s.params s.cache s.mem a.val).1 then s.misses else s.misses + 1 }

/-- 41_load_store.md, the MEM action of ST: the register `rs1` names, as it stands then, is stored at the address `imm`;
that word reads back as the value, every other word reads as before, and the cache, the counters and everything else
are untouched. -/
def Obligations.StoreWritesMemory : Prop :=
  ∀ (o : Operands) (s : State) (a : Fin 1024) (r : Fin 32), s.active = some .MEM → s.mem.wf = true →
    o.imm = some (a.val : Int) → o.rs1 = some (r.val : Int) →
    ∃ m : Memory, exec (.st o) s = .next { s with mem := m } ∧ m.wf = true ∧ m.read a.val = s.regs.get r ∧
      ∀ b : Nat, b ≠ a.val → m.read b = s.mem.read b

/-- 41_load_store.md and section 1 of 60_exceptions.md: where LD and ST fault in MEM. The address is checked before the
register; a negative address does not wrap. -/
def Obligations.LoadAndStoreFaults : Prop :=
  ∀ (i : Instr) (s : State), s.active = some .MEM → i.opcode = .LD ∨ i.opcode = .ST →
    (i.operands.imm = none → exec i s = .fault (.missingOperand i.opcode .imm)) ∧
    (∀ a, i.operands.imm = some a → a < 0 ∨ 1024 ≤ a → exec i s = .fault (.memoryBounds a)) ∧
    (∀ a : Fin 1024, i.operands.imm = some (a.val : Int) → i.opcode = .ST →
      (i.operands.rs1 = none → exec i s = .fault (.missingOperand .ST .rs1)) ∧
      (∀ n, i.operands.rs1 = some n → outOfRegisters n → exec i s = .fault (.registerBounds n)))

/-- 42_control_transfer.md, the EX action of BEQ and BNE with readable operands: taken, it adds the immediate to `pc`,
empties the slots, counts one cycle and ends the step; not taken, it changes nothing, and its immediate may be absent.
The condition of BNE is the spec's own general knowledge (assumption 18). -/
def Obligations.BranchesTransferOrFallThrough : Prop :=
  ∀ (i : Instr) (s : State) (r1 r2 : Fin 32), s.active = some .EX → i.operands.rs1 = some (r1.val : Int) →
    i.operands.rs2 = some (r2.val : Int) →
    (∀ (d : Int) (t : Nat), branchTaken i (s.regs.get r1) (s.regs.get r2) = some true → i.operands.imm = some d →
      (s.pc : Int) + d = (t : Int) → t ≤ 2147483647 →
      exec i s = .next { s with
        pc := t, slots := ⟨none, none, none, none, none⟩, cycle := s.cycle + 1, active := none }) ∧
    (branchTaken i (s.regs.get r1) (s.regs.get r2) = some false → exec i s = .next s)

/-- 42_control_transfer.md and section 1 of 60_exceptions.md: where BEQ and BNE fault in EX. The immediate and the new
`pc` are looked at only when the branch is taken. The condition of BNE is the spec's own general knowledge (assumption
18). -/
def Obligations.BranchFaults : Prop :=
  ∀ (i : Instr) (s : State), s.active = some .EX → i.opcode = .BEQ ∨ i.opcode = .BNE →
    (i.operands.rs1 = none → exec i s = .fault (.missingOperand i.opcode .rs1)) ∧
    (∀ n, i.operands.rs1 = some n → outOfRegisters n → exec i s = .fault (.registerBounds n)) ∧
    (∀ r1 : Fin 32, i.operands.rs1 = some (r1.val : Int) →
      (i.operands.rs2 = none → exec i s = .fault (.missingOperand i.opcode .rs2)) ∧
      (∀ n, i.operands.rs2 = some n → outOfRegisters n → exec i s = .fault (.registerBounds n)) ∧
      (∀ r2 : Fin 32, i.operands.rs2 = some (r2.val : Int) →
        branchTaken i (s.regs.get r1) (s.regs.get r2) = some true →
        (i.operands.imm = none → exec i s = .fault (.missingOperand i.opcode .imm)) ∧
        (∀ d, i.operands.imm = some d → (s.pc : Int) + d < 0 ∨ 2147483647 < (s.pc : Int) + d →
          exec i s = .fault (.pcBounds ((s.pc : Int) + d)))))

/-- R122: JMP sets `pc` to its immediate, absolute, empties the slots, counts one cycle and ends the step, saving
nothing; its only faults are an absent immediate and a target outside `0..PC_MAX`; outside EX it does nothing; its
opcode number is 8. A target beyond the program is legal: the run is then finished. -/
def Obligations.JumpSetsPc : Prop :=
  (∀ (o : Operands) (s : State), s.active = some .EX →
    (∀ t : Nat, o.imm = some (t : Int) → t ≤ 2147483647 →
      exec (.jmp o) s = .next { s with
        pc := t, slots := ⟨none, none, none, none, none⟩, cycle := s.cycle + 1, active := none }) ∧
    (o.imm = none → exec (.jmp o) s = .fault (.missingOperand .JMP .imm)) ∧
    (∀ t : Int, o.imm = some t → t < 0 ∨ 2147483647 < t → exec (.jmp o) s = .fault (.pcBounds t))) ∧
  (∀ (o : Operands) (s : State), s.active ≠ some .EX → exec (.jmp o) s = .next s) ∧
  (∀ o : Operands, opcField (encodeWord (.jmp o)) = 8) ∧
  (∀ (s t : State) (e : Entry) (o : Operands) (k : Nat), s.pending = false → s.slots.EX = some e → e.instr = .jmp o →
    o.imm = some (k : Int) → s.prog.length ≤ k → step s = .next t → isFinished t = true)

/-- R130: INT sets the pending flag, empties the slots, counts one cycle and ends the step; it reads no field, never
faults and leaves `pc` alone; outside EX it does nothing; its opcode number is 9; and the flag is clear whenever a step
runs it, since a step that starts with the flag set is frozen. -/
def Obligations.IntRaisesPending : Prop :=
  (∀ (o : Operands) (s : State), s.active = some .EX →
    exec (.int o) s = .next { s with
      pending := true, slots := ⟨none, none, none, none, none⟩, cycle := s.cycle + 1, active := none }) ∧
  (∀ (o : Operands) (s : State), s.active ≠ some .EX → exec (.int o) s = .next s) ∧
  (∀ o : Operands, opcField (encodeWord (.int o)) = 9) ∧
  (∀ s : State, s.pending = true → stepShape s = some .frozen ∨ stepShape s = none)

/-- The table in section 3 of 44_pipeline_sequencer.md: where it has a dash, the instruction does nothing. -/
def Obligations.SlotsWithoutAnActionDoNothing : Prop :=
  ∀ (i : Instr) (s : State),
    (s.active = none ∨ s.active = some .IF ∨ s.active = some .ID → exec i s = .next s) ∧
    (s.active = some .EX → i.opcode = .LD ∨ i.opcode = .ST → exec i s = .next s) ∧
    (s.active = some .MEM → i.opcode ≠ .LD → i.opcode ≠ .ST → exec i s = .next s) ∧
    (s.active = some .WB → commitsResult i = false → exec i s = .next s)

/-- The frame of ADD, SUB and MUL in every slot: only the latch of the entry in EX, and in WB only the register `rd`
names, may change; every word of memory reads as before. -/
def Obligations.ArithmeticFrame : Prop :=
  ∀ (i : Instr) (s t : State), latchesInEX i = true → exec i s = .next t →
    (∀ r : Fin 32, i.operands.rd ≠ some (r.val : Int) ∨ s.active ≠ some .WB → t.regs.get r = s.regs.get r) ∧
    (∀ a : Nat, t.mem.read a = s.mem.read a) ∧
    t = { s with
      regs := t.regs
      slots := { s.slots with EX := t.slots.EX } } ∧
    t.slots.EX.map Entry.instr = s.slots.EX.map Entry.instr ∧ (s.active ≠ some .EX → t.slots = s.slots)

/-- The frame of LD in every slot: in MEM only the latch of the entry there, the cache and the two counters, in WB only
the register `rd` names; every word of memory reads as before. -/
def Obligations.LoadFrame : Prop :=
  ∀ (o : Operands) (s t : State), exec (.ld o) s = .next t →
    (∀ r : Fin 32, o.rd ≠ some (r.val : Int) ∨ s.active ≠ some .WB → t.regs.get r = s.regs.get r) ∧
    (∀ a : Nat, t.mem.read a = s.mem.read a) ∧
    t = { s with
      regs := t.regs
      slots := { s.slots with MEM := t.slots.MEM }
      cache := t.cache
      hits := t.hits
      misses := t.misses } ∧
    t.slots.MEM.map Entry.instr = s.slots.MEM.map Entry.instr ∧
    (s.active ≠ some .MEM → t.slots = s.slots ∧ t.cache = s.cache ∧ t.hits = s.hits ∧ t.misses = s.misses)

/-- The frame of ST in every slot: only the word at its effective address, and only in MEM; no register, no latch, no
cache line, no counter. -/
def Obligations.StoreFrame : Prop :=
  ∀ (o : Operands) (s t : State), exec (.st o) s = .next t →
    t = { s with mem := t.mem } ∧
    (∀ a : Nat, effectiveAddress .ST o = .ok a → ∀ b : Nat, b ≠ a → t.mem.read b = s.mem.read b) ∧
    (s.active ≠ some .MEM → t = s)

/-- The frame of BEQ, BNE, JMP and INT in every slot: no register, no word of memory, no cache line and neither
cache counter changes; either nothing changes at all, or the slots are emptied and one cycle counted, with `pc` (not
INT) or the pending flag (INT only) changed beside. -/
def Obligations.ControlTransferFrame : Prop :=
  ∀ (i : Instr) (s t : State), i.opcode = .BEQ ∨ i.opcode = .BNE ∨ i.opcode = .JMP ∨ i.opcode = .INT →
    exec i s = .next t →
    (∀ r : Fin 32, t.regs.get r = s.regs.get r) ∧ (∀ a : Nat, t.mem.read a = s.mem.read a) ∧
    (t = s ∨ (s.active = some .EX ∧ t = { s with
      pc := t.pc
      pending := t.pending
      slots := ⟨none, none, none, none, none⟩
      cycle := s.cycle + 1
      active := none })) ∧
    (i.opcode ≠ .INT → t.pending = s.pending) ∧ (i.opcode = .INT → t.pc = s.pc)

/-- 40_arithmetic.md, the arithmetic laws: the three operations are `wrap` of the exact integer result, which is
addition, subtraction and multiplication modulo 2^32 of the unsigned readings as well. The operations and the two's
complement reading are the spec's own general knowledge (assumptions 17 and 19). -/
def Obligations.ArithmeticIsModuloTheWord : Prop :=
  ∀ a b : Word,
    (sum a b).toInt = (a.toInt + b.toInt).bmod 4294967296 ∧
    (difference a b).toInt = (a.toInt - b.toInt).bmod 4294967296 ∧
    (product a b).toInt = (a.toInt * b.toInt).bmod 4294967296 ∧
    (sum a b).toNat = (a.toNat + b.toNat) % 4294967296 ∧
    (difference a b).toNat = (a.toNat + (4294967296 - b.toNat)) % 4294967296 ∧
    (product a b).toNat = (a.toNat * b.toNat) % 4294967296

/-- R171 and R175: the access operation. A valid line with the tag in the addressed set is a hit and changes nothing;
otherwise a new valid line with that tag and the accessed word is appended, and the first line is dropped if the set
now has more than `ASSOC`. -/
def Obligations.CacheAccessContract : Prop :=
  ∀ (p : Params) (c : Cache) (m : Memory) (a : Nat),
    ((∃ l ∈ setAt c (setIndex p a), l.valid = true ∧ l.tag = tagOf p a) → cacheAccess p c m a = (true, c)) ∧
    ((¬∃ l ∈ setAt c (setIndex p a), l.valid = true ∧ l.tag = tagOf p a) →
      cacheAccess p c m a = (false, c.set (setIndex p a)
        (if (setAt c (setIndex p a)).length + 1 > p.assoc
          then (setAt c (setIndex p a) ++ [(⟨true, tagOf p a, m.read a⟩ : CacheLine)]).drop 1
          else setAt c (setIndex p a) ++ [(⟨true, tagOf p a, m.read a⟩ : CacheLine)])))

/-- Section 5 of 45_cache.md: the second of two accesses to an address in succession hits, whether or not the set was
full. -/
def Obligations.CacheRepeatHits : Prop :=
  ∀ (p : Params) (c : Cache) (m m' : Memory) (a : Nat),
    geometryLegal p.cacheCapacity p.blockSize p.assoc = true → cacheWf p c = true →
    cacheAccess p (cacheAccess p c m a).2 m' a = (true, (cacheAccess p c m a).2)

/-- Sections 2 and 5 of 45_cache.md, strict insertion order, "regardless of which line was most recently hit": after any
sequence of accesses, hits among them and whatever memory holds at each, a set holds the last `ASSOC` of its old lines
followed by the lines of the accesses to it that missed, in the order of those misses. In particular accesses to one
set with tags that are pairwise distinct and not in it all miss. -/
def Obligations.EvictionFollowsInsertionOrder : Prop :=
  (∀ (p : Params) (c : Cache) (k : Nat) (accessed : List (Memory × Nat)), k < c.length →
    (setAt c k).length ≤ p.assoc →
    setAt (accessAll p c accessed) k =
      (setAt c k ++ ((accessesMissed p c accessed).filter fun x => setIndex p x.2 = k).map fun x =>
        (⟨true, tagOf p x.2, x.1.read x.2⟩ : CacheLine)).drop
          ((setAt c k).length + ((accessesMissed p c accessed).filter fun x => setIndex p x.2 = k).length - p.assoc)) ∧
  (∀ (p : Params) (c : Cache) (m : Memory) (k : Nat) (accessed : List Nat), k < c.length →
    (setAt c k).length ≤ p.assoc → (∀ a ∈ accessed, setIndex p a = k) → (accessed.map (tagOf p)).Nodup →
    (∀ a ∈ accessed, ∀ l ∈ setAt c k, l.tag ≠ tagOf p a) →
    setAt (accessAll p c (accessed.map fun a => (m, a))) k =
      (setAt c k ++ accessed.map fun a => (⟨true, tagOf p a, m.read a⟩ : CacheLine)).drop
        ((setAt c k).length + accessed.length - p.assoc))

/-- R174: the address mapping, on every legal geometry: the formulas, the tag as the block divided by the number of
sets, that two addresses are indistinguishable to the cache exactly when they lie in one block, and the examples. -/
def Obligations.AddressMapping : Prop :=
  (∀ (p : Params) (a b : Nat), geometryLegal p.cacheCapacity p.blockSize p.assoc = true →
    setIndex p a = (a / p.blockSize) % numSets p ∧ tagOf p a = a / (p.blockSize * numSets p) ∧
    tagOf p a = blockOf p a / numSets p ∧ setIndex p a < numSets p ∧
    ((setIndex p a = setIndex p b ∧ tagOf p a = tagOf p b) ↔ a / p.blockSize = b / p.blockSize)) ∧
  ([0, 3, 4, 7, 8, 15, 16, 255, 1023].map fun a => (setIndex Config.exampleParams a, tagOf Config.exampleParams a)) =
    [(0, 0), (0, 0), (1, 0), (1, 0), (0, 1), (1, 1), (0, 2), (1, 31), (1, 127)]

/-- Section 1 of 45_cache.md: construction succeeds exactly on three positive integers with the capacity an exact
multiple of block size times associativity, reports the three otherwise, and keeps what it was given. -/
def Obligations.ConstructionChecksTheGeometry : Prop :=
  ∀ (capacity blockSize assoc : Int) (rd : Fin 32) (addr : Fin 1024) (imem irq : Option Nat) (absent : Bool),
    ((1 ≤ capacity ∧ 1 ≤ blockSize ∧ 1 ≤ assoc ∧ blockSize * assoc ∣ capacity) →
      ∃ s, construct capacity blockSize assoc rd addr imem irq absent = .ok s ∧
        (s.params.cacheCapacity : Int) = capacity ∧ (s.params.blockSize : Int) = blockSize ∧
        (s.params.assoc : Int) = assoc ∧ s.params.svcRd = rd ∧ s.params.svcAddr = addr ∧
        s.params.imemSize = imem ∧ s.params.irqDepth = irq ∧ s.params.hazardAbsentMatch = absent ∧
        (numSets s.params : Int) * (blockSize * assoc) = capacity ∧ 1 ≤ numSets s.params) ∧
    (¬(1 ≤ capacity ∧ 1 ≤ blockSize ∧ 1 ≤ assoc ∧ blockSize * assoc ∣ capacity) →
      construct capacity blockSize assoc rd addr imem irq absent =
        .error (.configurationError capacity blockSize assoc))

/-- R201 and R202: `trigger` appends, unless a finite FIFO is full, and then it is refused and nothing changes;
`handleNext` gives the tags back in exactly the order they were triggered, and none from an empty FIFO; neither has
any other effect, on the pending flag among the rest. -/
def Obligations.ExternalFifoOrder : Prop :=
  (∀ (s : State) (ts : List Tag), s.params.irqDepth = none →
    triggerAll ts s = .ok { s with irqFifo := s.irqFifo ++ ts }) ∧
  (∀ (s : State) (t : Tag) (depth : Nat), s.params.irqDepth = some depth →
    (s.irqFifo.length < depth → perform (.trigger t) s = ({ s with irqFifo := s.irqFifo ++ [t] }, .done)) ∧
    (depth ≤ s.irqFifo.length → perform (.trigger t) s = (s, .refused .fifoFull))) ∧
  (∀ s : State, drain s.irqFifo.length s = (s.irqFifo.map some, { s with irqFifo := [] })) ∧
  (∀ s : State, s.irqFifo = [] → handleNext s = (none, s))

/-- R205: `setPending()` sets the flag and does nothing else, so that setting it again changes nothing. -/
def Obligations.SetPendingIsIdempotent : Prop :=
  ∀ s : State, perform .setPending s = ({ s with pending := true }, .done) ∧
    perform .setPending (perform .setPending s).1 = perform .setPending s ∧
    (s.pending = true → perform .setPending s = (s, .done))

/-- Section 5 of 60_exceptions.md: the snapshots, `peek()` and `isFinished()` change nothing, and report the registers,
the memory window from its first word to its last, the cache lines oldest first, the instruction in each slot and the
three counters as they are. -/
def Obligations.SnapshotsChangeNothing : Prop :=
  (∀ (op : Operation) (s : State), op.reads = true → (perform op s).1 = s) ∧
  (∀ s : State, (perform .registers s).2 = .words s.regs.toList ∧
    (perform .cacheContents s).2 = .sets s.cache ∧ (perform .peek s).2 = .tags s.irqFifo ∧
    (perform .counters s).2 = .counts s.cycle s.hits s.misses ∧
    (perform .occupancy s).2 = .slots [s.slots.IF.map Entry.instr, s.slots.ID.map Entry.instr,
      s.slots.EX.map Entry.instr, s.slots.MEM.map Entry.instr, s.slots.WB.map Entry.instr]) ∧
  (∀ (s : State) (lo hi : Fin 1024), lo.val ≤ hi.val →
    ∃ ws, (perform (.memoryWindow lo hi) s).2 = .words ws ∧ ws.length + lo.val = hi.val + 1 ∧
      ∀ k : Nat, lo.val + k ≤ hi.val → ws[k]? = some (s.mem.read (lo.val + k)))

/-- Section 1 of 60_exceptions.md, the fault model: a faulting step reports the fault, sets the fault status to the name
of that fault, which is one of the four that a step can raise, and adds nothing to `cycle`; from then on steps are
refused; a load clears it and gives the state of any other load of that program. The names have the codes 1 to 6. That
the external FIFO outlives the fault is the model's reading (assumption 8). -/
def Obligations.FaultIsStickyUntilALoad : Prop :=
  (∀ (s : State) (f : Fault), step s = .fault f →
    (perform .step s).2 = .fault f ∧
    ((∃ n, f = .registerBounds n ∧ (perform .step s).1.fault = some .registerBounds) ∨
      (∃ n, f = .pcBounds n ∧ (perform .step s).1.fault = some .pcBounds) ∨
      (∃ n, f = .memoryBounds n ∧ (perform .step s).1.fault = some .memoryBounds) ∨
      (∃ op field, f = .missingOperand op field ∧ (perform .step s).1.fault = some .missingOperand)) ∧
    (perform .step s).1.cycle = s.cycle ∧
    (∃ r, step (perform .step s).1 = .refused r) ∧
    (∀ p : List Instr, loadProgram p (perform .step s).1 = loadProgram p s)) ∧
  [FaultCode.configurationError, .registerBounds, .pcBounds, .memoryBounds, .missingOperand, .illegalInstruction].map
    FaultCode.number = [1, 2, 3, 4, 5, 6]

/-- Section 1 of 10_state.md: every register, `r0` among them, reads back what was last written to it, and a write
leaves the others alone; an index outside `0..31` faults on either access. -/
def Obligations.EveryRegisterIsOrdinary : Prop :=
  ∀ (s : State) (v : Word),
    (∀ r : Fin 32, ∃ t, writeRegister (r.val : Int) v s = .ok t ∧ readRegister t (r.val : Int) = .ok v ∧
      ∀ r' : Fin 32, r' ≠ r → readRegister t (r'.val : Int) = readRegister s (r'.val : Int)) ∧
    (∀ n : Int, outOfRegisters n → writeRegister n v s = .error (.registerBounds n) ∧
      readRegister s n = .error (.registerBounds n))

/-- Sections 1 and 4 of 20_memory.md: a word reads back the value most recently stored there, every other word is left
alone, and the canonical form (assumption 3) is kept. -/
def Obligations.MemoryReadAfterWrite : Prop :=
  ∀ (m : Memory) (a : Nat) (v : Word), m.wf = true → a < 1024 →
    (m.write a v).wf = true ∧ (m.write a v).read a = v ∧ ∀ b : Nat, b ≠ a → (m.write a v).read b = m.read b

/-- 43_system.md, what an INT does to the instruction stream: the step after it injects the service instruction, the
step after that fetches at the `pc` the INT left, so the two instructions behind the INT are never fetched again. -/
def Obligations.IntDestroysTheTwoBehindIt : Prop :=
  ∀ (s t : State) (e : Entry) (o : Operands), s.ready → s.slots.EX = some e → e.instr = .int o → step s = .next t →
    t.slots = ⟨none, none, none, none, none⟩ ∧ t.pc = s.pc ∧ t.pending = true ∧
    ∃ u v, step t = .next u ∧ u.slots = ⟨some ⟨serviceInstruction s.params, none⟩, none, none, none, none⟩ ∧
      u.pc = s.pc ∧ u.pending = false ∧ u.regs = t.regs ∧ u.mem = t.mem ∧
      step u = .next v ∧ v.slots = ⟨s.prog[s.pc]?.map (fun i => ⟨i, none⟩),
        some ⟨serviceInstruction s.params, none⟩, none, none, none⟩ ∧ v.cycle = s.cycle + 3

/-- Section 6 of 44_pipeline_sequencer.md, the timing chart, for ADD, SUB, MUL, LD and ST: one of these five that is the
last instruction of a program and is fetched into an empty pipeline has done all it does after six steps, and all slots
are empty again. The program, the FIFO and everything the instruction does not name are as before. The three operations
are the spec's own general knowledge (assumption 17). -/
def Obligations.LoneArithmeticLoadOrStoreCompletesInSixSteps : Prop :=
  ∀ (s : State) (i : Instr), s.ready → s.slots = ⟨none, none, none, none, none⟩ → s.prog[s.pc]? = some i →
    s.pc + 1 = s.prog.length →
    (∀ (r d : Fin 32) (b v : Word), i.operands.rs1 = some (r.val : Int) → i.operands.rd = some (d.val : Int) →
      hasSecondOperand i.operands s b → arithmeticResult i (s.regs.get r) b = some v →
      run 6 s = .next { s with
        regs := s.regs.set d.val v d.isLt, pc := s.pc + 1, cycle := s.cycle + 6, active := none }) ∧
    (∀ (d : Fin 32) (a : Fin 1024) (o : Operands), i = .ld o → o.rd = some (d.val : Int) →
      o.imm = some (a.val : Int) →
      run 6 s = .next { s with
        regs := s.regs.set d.val (s.mem.read a.val) d.isLt
        pc := s.pc + 1
        cycle := s.cycle + 6
        cache := (cacheAccess s.params s.cache s.mem a.val).2
        hits := if (cacheAccess s.params s.cache s.mem a.val).1 then s.hits + 1 else s.hits
        misses := if (cacheAccess s.params s.cache s.mem a.val).1 then s.misses else s.misses + 1
        active := none }) ∧
    (∀ (r : Fin 32) (a : Fin 1024) (o : Operands), i = .st o → o.rs1 = some (r.val : Int) →
      o.imm = some (a.val : Int) →
      run 6 s = .next { s with
        mem := s.mem.write a.val (s.regs.get r), pc := s.pc + 1, cycle := s.cycle + 6, active := none })

/-- The next step runs the word placed by `withFetchWord` (the model's placement, assumption 5), and that placement is
where fetching leads: an instruction that acts first in EX is run there by the very next step, LD and ST in MEM, and
three and four steps from the same word placed at `pc` give that very state but for the cycles counted. -/
def Obligations.PlacedWordRunsAtTheNextStep : Prop :=
  ∀ (s : State) (nbits w : Nat) (i : Instr), decodeTableWord nbits w = some i →
    (i.opcode ≠ .LD → i.opcode ≠ .ST →
      step (s.withFetchWord nbits w) =
        andThen (exec i { s.withFetchWord nbits w with active := some .EX })
          (fun s' => .next (if s'.active = none then s' else advanceShift s')) ∧
      run 3 (s.withProgramWord nbits w) = .next { s.withFetchWord nbits w with cycle := s.cycle + 3 }) ∧
    (i.opcode = .LD ∨ i.opcode = .ST →
      step (s.withFetchWord nbits w) =
        andThen (exec i { s.withFetchWord nbits w with active := some .MEM }) (fun s' => .next (advanceShift s')) ∧
      run 4 (s.withProgramWord nbits w) = .next { s.withFetchWord nbits w with cycle := s.cycle + 4 })

/-- Section 1 of 70_reset_and_hazards.md: a program longer than `IMEM_SIZE`, or than `PC_MAX` whatever `IMEM_SIZE` is
(assumption 10), is refused, as records and as a binary image, and then nothing changes (assumption 21). -/
def Obligations.LoadRefusesALongerProgram : Prop :=
  (∀ P : Params, (∀ n, P.imemSize = some n → imemLimit P ≤ n) ∧ imemLimit P ≤ 2147483647 ∧
    (P.imemSize = none → imemLimit P = 2147483647) ∧
    (∀ n, P.imemSize = some n → n ≤ 2147483647 → imemLimit P = n)) ∧
  (∀ (p : List Instr) (s : State), 2147483647 < p.length ∨ (∃ n, s.params.imemSize = some n ∧ n < p.length) →
    perform (.loadProgram p) s = (s, .refused (.programTooLong p.length)) ∧
    ∀ image : List Code, image.map decode = p.map Except.ok →
      perform (.loadImage image) s = (s, .refused (.programTooLong p.length)))
end

