-- ==== Sys2Proof/Laws/Cache.lean ====
section
/-! SUPPORT. The laws of the cache engine: what an access can do, and that it keeps the form of R33. -/

namespace Sys2Proof.Machine

/-- A legal geometry (R170). -/
theorem geometryLegal_iff {capacity blockSize assoc : Int} :
    geometryLegal capacity blockSize assoc = true ↔
      1 ≤ capacity ∧ 1 ≤ blockSize ∧ 1 ≤ assoc ∧ capacity % (blockSize * assoc) = 0 := by
  simp [geometryLegal, and_assoc]

/-- A hit changes nothing (R175). -/
theorem cacheAccess_hit {p : Params} {c : Cache} {m : Memory} {a : Nat}
    (h : holdsTag (setAt c (setIndex p a)) (tagOf p a) = true) : cacheAccess p c m a = (true, c) := by
  simp [cacheAccess, h]

/-- A miss replaces the addressed set only (R172, R173). -/
theorem cacheAccess_miss {p : Params} {c : Cache} {m : Memory} {a : Nat}
    (h : holdsTag (setAt c (setIndex p a)) (tagOf p a) = false) :
    cacheAccess p c m a = (false, c.set (setIndex p a)
      (insertLine p.assoc (setAt c (setIndex p a)) ⟨true, tagOf p a, m.read a⟩)) := by
  simp [cacheAccess, h]

/-- An access reads memory only to fill a line, and the flag depends on the cache alone (R171). -/
theorem cacheAccess_fst (p : Params) (c : Cache) (m : Memory) (a : Nat) :
    (cacheAccess p c m a).1 = holdsTag (setAt c (setIndex p a)) (tagOf p a) := by
  unfold cacheAccess; split <;> simp_all

theorem tagsDistinct_append {lines : CacheSet} {l : CacheLine} :
    tagsDistinct lines = true → (∀ l' ∈ lines, l'.tag ≠ l.tag) → tagsDistinct (lines ++ [l]) = true := by
  induction lines with
  | nil => intro _ _; rfl
  | cons x xs ih =>
    intro h hl
    simp only [tagsDistinct, List.cons_append, Bool.and_eq_true, List.all_eq_true, bne_iff_ne, ne_eq,
      List.mem_append, List.mem_cons, List.not_mem_nil, or_false] at h hl ⊢
    refine ⟨?_, ih h.2 fun l' hl' => hl l' (.inr hl')⟩
    rintro l' (h' | rfl)
    · exact h.1 l' h'
    · exact fun e => hl x (.inl rfl) e.symm

theorem tagsDistinct_drop_one {lines : CacheSet} (h : tagsDistinct lines = true) :
    tagsDistinct (lines.drop 1) = true := by
  cases lines with
  | nil => rfl
  | cons x xs => simp only [tagsDistinct, Bool.and_eq_true] at h; exact h.2

/-- In a set whose lines are all valid, a tag that no lookup finds is the tag of no line (R172). -/
theorem tag_ne_of_not_holdsTag {lines : CacheSet} {t : Nat} (hv : ∀ l ∈ lines, l.valid = true)
    (h : holdsTag lines t = false) : ∀ l ∈ lines, l.tag ≠ t := by
  intro l hl e
  have : holdsTag lines t = true := by
    simp only [holdsTag, List.any_eq_true, Bool.and_eq_true, beq_iff_eq]
    exact ⟨l, hl, hv l hl, e⟩
  simp [h] at this

theorem cacheSetWf_iff {p : Params} {lines : CacheSet} :
    cacheSetWf p lines = true ↔
      lines.length ≤ p.assoc ∧ (∀ l ∈ lines, l.valid = true) ∧ tagsDistinct lines = true := by
  simp [cacheSetWf, and_assoc]

/-- Inserting a line whose tag the set lacks keeps the form of a set (R172, R173). -/
theorem cacheSetWf_insertLine {p : Params} {lines : CacheSet} {l : CacheLine}
    (h : cacheSetWf p lines = true) (hl : l.valid = true) (ht : holdsTag lines l.tag = false) :
    cacheSetWf p (insertLine p.assoc lines l) = true := by
  rw [cacheSetWf_iff] at h ⊢
  obtain ⟨hlen, hv, hd⟩ := h
  have hd' := tagsDistinct_append hd (tag_ne_of_not_holdsTag hv ht)
  have hv' : ∀ x ∈ lines ++ [l], x.valid = true := by
    intro x hx
    rcases List.mem_append.mp hx with hx | hx
    · exact hv x hx
    · rw [List.mem_singleton.mp hx]; exact hl
  unfold insertLine
  split
  · refine ⟨by simp; omega, fun x hx => hv' x (List.mem_of_mem_drop hx), tagsDistinct_drop_one hd'⟩
  · exact ⟨by omega, hv', hd'⟩

theorem cacheSetWf_nil (p : Params) : cacheSetWf p [] = true := by simp [cacheSetWf, tagsDistinct]

theorem cacheSetWf_setAt {p : Params} {c : Cache} (h : cacheWf p c = true) (k : Nat) :
    cacheSetWf p (setAt c k) = true := by
  simp only [cacheWf, Bool.and_eq_true, List.all_eq_true] at h
  unfold setAt
  by_cases hk : k < c.length
  · rw [List.getD_eq_getElem _ _ hk]; exact h.2 _ (List.getElem_mem hk)
  · rw [List.getD_eq_default _ _ (by omega)]; exact cacheSetWf_nil p

/-- Every access keeps the form of the cache (R33, R180 (c), (d)). -/
theorem cacheWf_access {p : Params} {c : Cache} {m : Memory} {a : Nat} (h : cacheWf p c = true) :
    cacheWf p (cacheAccess p c m a).2 = true := by
  cases hit : holdsTag (setAt c (setIndex p a)) (tagOf p a) with
  | true => rw [cacheAccess_hit hit]; exact h
  | false =>
    rw [cacheAccess_miss hit]
    have hs := cacheSetWf_setAt h (setIndex p a)
    simp only [cacheWf, Bool.and_eq_true, List.all_eq_true, decide_eq_true_eq, List.length_set] at h ⊢
    refine ⟨h.1, fun x hx => ?_⟩
    rcases List.mem_or_eq_of_mem_set hx with hx | rfl
    · exact h.2 x hx
    · exact cacheSetWf_insertLine hs rfl hit

/-- A load leaves a cache of the right form, every set empty (R177). -/
theorem cacheWf_emptyCache (p : Params) : cacheWf p (emptyCache p) = true := by
  simp only [cacheWf, emptyCache, List.length_replicate, decide_true, Bool.true_and, List.all_eq_true]
  intro x hx
  rw [List.eq_of_mem_replicate hx]
  exact cacheSetWf_nil p

/-- What a legal geometry gives (R7): every divisor of the address mapping is positive, and the capacity is exact. -/
theorem geometryLegal_pos {p : Params} (h : geometryLegal p.cacheCapacity p.blockSize p.assoc = true) :
    1 ≤ p.blockSize ∧ 1 ≤ p.assoc ∧ 1 ≤ numSets p ∧ p.cacheCapacity = p.blockSize * p.assoc * numSets p := by
  obtain ⟨h1, h2, h3, h4⟩ := geometryLegal_iff.mp h
  have h4' : p.cacheCapacity % (p.blockSize * p.assoc) = 0 := by exact_mod_cast h4
  have hd := Nat.dvd_of_mod_eq_zero h4'
  exact ⟨by omega, by omega,
    Nat.div_pos (Nat.le_of_dvd (by omega) hd) (Nat.mul_pos (by omega) (by omega)),
    (Nat.mul_div_cancel' hd).symm⟩

/-- The set index of an address names a set (R174). -/
theorem setIndex_lt {p : Params} (h : geometryLegal p.cacheCapacity p.blockSize p.assoc = true) (a : Nat) :
    setIndex p a < numSets p :=
  Nat.mod_lt _ (geometryLegal_pos h).2.2.1

theorem setAt_set_same {c : Cache} {k : Nat} (h : k < c.length) (lines : CacheSet) :
    setAt (c.set k lines) k = lines := by
  simp [setAt, List.getD, h]

end Sys2Proof.Machine
end

