-- ==== Sys2Proof/Laws/Decode.lean ====
section
/-! SUPPORT. The fields of an encoded record are where format `F64` puts them (R74), and they are all there is. -/

namespace Sys2Proof

theorem opcField_encodeWord (i : Instr) : opcField (encodeWord i) = i.opcode.number := by
  unfold opcField encodeWord
  rw [BitVec.extractLsb'_append_eq_of_le (by omega)]
  exact BitVec.extractLsb'_eq_self

theorem rdPresent_encodeWord (i : Instr) : rdPresent (encodeWord i) = i.operands.rd.isSome := by
  simp only [rdPresent, encodeWord, BitVec.getLsbD_append]; simp

theorem rs1Present_encodeWord (i : Instr) : rs1Present (encodeWord i) = i.operands.rs1.isSome := by
  simp only [rs1Present, encodeWord, BitVec.getLsbD_append]; simp

theorem rs2Present_encodeWord (i : Instr) : rs2Present (encodeWord i) = i.operands.rs2.isSome := by
  simp only [rs2Present, encodeWord, BitVec.getLsbD_append]; simp

theorem immPresent_encodeWord (i : Instr) : immPresent (encodeWord i) = i.operands.imm.isSome := by
  simp only [immPresent, encodeWord, BitVec.getLsbD_append]; simp

theorem rdField_encodeWord (i : Instr) : rdField (encodeWord i) = encodeRegister i.operands.rd := by
  unfold rdField encodeWord
  iterate 5 rw [BitVec.extractLsb'_append_eq_of_add_le (by omega)]
  rw [BitVec.extractLsb'_append_eq_of_le (by omega)]
  exact BitVec.extractLsb'_eq_self

theorem rs1Field_encodeWord (i : Instr) : rs1Field (encodeWord i) = encodeRegister i.operands.rs1 := by
  unfold rs1Field encodeWord
  iterate 6 rw [BitVec.extractLsb'_append_eq_of_add_le (by omega)]
  rw [BitVec.extractLsb'_append_eq_of_le (by omega)]
  exact BitVec.extractLsb'_eq_self

theorem rs2Field_encodeWord (i : Instr) : rs2Field (encodeWord i) = encodeRegister i.operands.rs2 := by
  unfold rs2Field encodeWord
  iterate 7 rw [BitVec.extractLsb'_append_eq_of_add_le (by omega)]
  rw [BitVec.extractLsb'_append_eq_of_le (by omega)]
  exact BitVec.extractLsb'_eq_self

theorem immField_encodeWord (i : Instr) : immField (encodeWord i) = encodeImmediate i.operands.imm := by
  unfold immField encodeWord
  iterate 8 rw [BitVec.extractLsb'_append_eq_of_add_le (by omega)]
  exact BitVec.extractLsb'_eq_self

theorem getLsbD_field (W : Code) {start len k : Nat} (h1 : start ≤ k) (h2 : k < start + len) :
    (W.extractLsb' start len).getLsbD (k - start) = W.getLsbD k := by
  rw [BitVec.getLsbD_extractLsb', Nat.add_sub_cancel' h1, decide_eq_true (by omega), Bool.true_and]

theorem getLsbD_bit (W : Code) {n k : Nat} (h : k = n) :
    (BitVec.ofBool (W.getLsbD n)).getLsbD (k - n) = W.getLsbD k := by
  subst h
  rw [Nat.sub_self, BitVec.getLsbD_ofBool]
  simp

/-- A 64-bit word is its nine fields (R74: "There are no other bits"). -/
theorem code_eq_fields (W : Code) :
    W = opcField W ++ (BitVec.ofBool (rdPresent W) ++ (BitVec.ofBool (rs1Present W) ++
      (BitVec.ofBool (rs2Present W) ++ (BitVec.ofBool (immPresent W) ++
        (rdField W ++ (rs1Field W ++ (rs2Field W ++ immField W))))))) := by
  apply BitVec.eq_of_getLsbD_eq
  intro k hk
  simp only [opcField, rdPresent, rs1Present, rs2Present, immPresent, rdField, rs1Field, rs2Field, immField,
    BitVec.getLsbD_append]
  split_ifs
  · exact (getLsbD_field W (start := 0) (len := 32) (Nat.zero_le k) (by omega)).symm
  · exact (getLsbD_field W (start := 32) (by omega) (by omega)).symm
  · exact (getLsbD_field W (start := 40) (by omega) (by omega)).symm
  · exact (getLsbD_field W (start := 48) (by omega) (by omega)).symm
  · exact (getLsbD_bit W (n := 56) (by omega)).symm
  · exact (getLsbD_bit W (n := 57) (by omega)).symm
  · exact (getLsbD_bit W (n := 58) (by omega)).symm
  · exact (getLsbD_bit W (n := 59) (by omega)).symm
  · exact (getLsbD_field W (start := 60) (by omega) (by omega)).symm

theorem encodeRegister_decodeRegister {present : Bool} {field : BitVec 8} (h : present = false → field = 0) :
    encodeRegister (decodeRegister present field) = field := by
  cases present with
  | true => simp [decodeRegister, encodeRegister]
  | false => simp [decodeRegister, encodeRegister, h]

theorem encodeImmediate_decodeImmediate {present : Bool} {field : BitVec 32} (h : present = false → field = 0) :
    encodeImmediate (decodeImmediate present field) = field := by
  cases present with
  | true => simp [decodeImmediate, encodeImmediate]
  | false => simp [decodeImmediate, encodeImmediate, h]

theorem decodeRegister_encodeRegister {f : Option Int} (h : absentOr registerFits f = true) :
    decodeRegister f.isSome (encodeRegister f) = f := by
  cases f with
  | none => rfl
  | some i =>
    simp only [absentOr, registerFits, Bool.and_eq_true, decide_eq_true_eq] at h
    simp only [decodeRegister, encodeRegister, Option.isSome_some, if_true, BitVec.toNat_ofInt, Option.some.injEq]
    omega

theorem decodeImmediate_encodeImmediate {f : Option Int} (h : absentOr immFits f = true) :
    decodeImmediate f.isSome (encodeImmediate f) = f := by
  cases f with
  | none => rfl
  | some v =>
    simp only [absentOr, immFits, Bool.and_eq_true, decide_eq_true_eq] at h
    simp only [decodeImmediate, encodeImmediate, Option.isSome_some, if_true, BitVec.toInt_ofInt, Option.some.injEq]
    exact Int.bmod_eq_of_le (by omega) (by omega)

theorem opcodeOf_number (op : Opcode) : opcodeOf op.number.toNat = some op := by cases op <;> rfl

theorem number_of_opcodeOf {b : BitVec 4} {op : Opcode} (h : opcodeOf b.toNat = some op) : op.number = b := by
  revert h; revert b; cases op <;> decide

@[simp] theorem opcode_instr (op : Opcode) (o : Operands) : (op.instr o).opcode = op := by cases op <;> rfl

@[simp] theorem operands_instr (op : Opcode) (o : Operands) : (op.instr o).operands = o := by cases op <;> rfl

theorem instr_opcode_operands (i : Instr) : i.opcode.instr i.operands = i := by cases i <;> rfl

end Sys2Proof
end

