-- ==== Sys2Proof/Laws/State.lean ====
section
/-! SUPPORT. What each update of the state does to each field: one lemma per field per update, so that no proof
unfolds a record update. -/

namespace Sys2Proof.Machine

/-! `putRegister` (R20, R21). -/

@[simp] theorem putRegister_params (r : Fin 32) (v : Word) (s : State) : (putRegister r v s).params = s.params := rfl
@[simp] theorem putRegister_regs (r : Fin 32) (v : Word) (s : State) : (putRegister r v s).regs = s.regs.set r.val v r.isLt := rfl
@[simp] theorem putRegister_pc (r : Fin 32) (v : Word) (s : State) : (putRegister r v s).pc = s.pc := rfl
@[simp] theorem putRegister_cycle (r : Fin 32) (v : Word) (s : State) : (putRegister r v s).cycle = s.cycle := rfl
@[simp] theorem putRegister_hits (r : Fin 32) (v : Word) (s : State) : (putRegister r v s).hits = s.hits := rfl
@[simp] theorem putRegister_misses (r : Fin 32) (v : Word) (s : State) : (putRegister r v s).misses = s.misses := rfl
@[simp] theorem putRegister_pending (r : Fin 32) (v : Word) (s : State) : (putRegister r v s).pending = s.pending := rfl
@[simp] theorem putRegister_slots (r : Fin 32) (v : Word) (s : State) : (putRegister r v s).slots = s.slots := rfl
@[simp] theorem putRegister_mem (r : Fin 32) (v : Word) (s : State) : (putRegister r v s).mem = s.mem := rfl
@[simp] theorem putRegister_prog (r : Fin 32) (v : Word) (s : State) : (putRegister r v s).prog = s.prog := rfl
@[simp] theorem putRegister_cache (r : Fin 32) (v : Word) (s : State) : (putRegister r v s).cache = s.cache := rfl
@[simp] theorem putRegister_irqFifo (r : Fin 32) (v : Word) (s : State) : (putRegister r v s).irqFifo = s.irqFifo := rfl
@[simp] theorem putRegister_fault (r : Fin 32) (v : Word) (s : State) : (putRegister r v s).fault = s.fault := rfl
@[simp] theorem putRegister_loaded (r : Fin 32) (v : Word) (s : State) : (putRegister r v s).loaded = s.loaded := rfl
@[simp] theorem putRegister_active (r : Fin 32) (v : Word) (s : State) : (putRegister r v s).active = s.active := rfl

/-! `memWrite` (R59, R113). -/

@[simp] theorem memWrite_params (a : Nat) (v : Word) (s : State) : (memWrite a v s).params = s.params := rfl
@[simp] theorem memWrite_regs (a : Nat) (v : Word) (s : State) : (memWrite a v s).regs = s.regs := rfl
@[simp] theorem memWrite_pc (a : Nat) (v : Word) (s : State) : (memWrite a v s).pc = s.pc := rfl
@[simp] theorem memWrite_cycle (a : Nat) (v : Word) (s : State) : (memWrite a v s).cycle = s.cycle := rfl
@[simp] theorem memWrite_hits (a : Nat) (v : Word) (s : State) : (memWrite a v s).hits = s.hits := rfl
@[simp] theorem memWrite_misses (a : Nat) (v : Word) (s : State) : (memWrite a v s).misses = s.misses := rfl
@[simp] theorem memWrite_pending (a : Nat) (v : Word) (s : State) : (memWrite a v s).pending = s.pending := rfl
@[simp] theorem memWrite_slots (a : Nat) (v : Word) (s : State) : (memWrite a v s).slots = s.slots := rfl
@[simp] theorem memWrite_mem (a : Nat) (v : Word) (s : State) : (memWrite a v s).mem = s.mem.write a v := rfl
@[simp] theorem memWrite_prog (a : Nat) (v : Word) (s : State) : (memWrite a v s).prog = s.prog := rfl
@[simp] theorem memWrite_cache (a : Nat) (v : Word) (s : State) : (memWrite a v s).cache = s.cache := rfl
@[simp] theorem memWrite_irqFifo (a : Nat) (v : Word) (s : State) : (memWrite a v s).irqFifo = s.irqFifo := rfl
@[simp] theorem memWrite_fault (a : Nat) (v : Word) (s : State) : (memWrite a v s).fault = s.fault := rfl
@[simp] theorem memWrite_loaded (a : Nat) (v : Word) (s : State) : (memWrite a v s).loaded = s.loaded := rfl
@[simp] theorem memWrite_active (a : Nat) (v : Word) (s : State) : (memWrite a v s).active = s.active := rfl

/-! `latchEX` (R29). -/

@[simp] theorem latchEX_params (v : Word) (s : State) : (latchEX v s).params = s.params := rfl
@[simp] theorem latchEX_regs (v : Word) (s : State) : (latchEX v s).regs = s.regs := rfl
@[simp] theorem latchEX_pc (v : Word) (s : State) : (latchEX v s).pc = s.pc := rfl
@[simp] theorem latchEX_cycle (v : Word) (s : State) : (latchEX v s).cycle = s.cycle := rfl
@[simp] theorem latchEX_hits (v : Word) (s : State) : (latchEX v s).hits = s.hits := rfl
@[simp] theorem latchEX_misses (v : Word) (s : State) : (latchEX v s).misses = s.misses := rfl
@[simp] theorem latchEX_pending (v : Word) (s : State) : (latchEX v s).pending = s.pending := rfl
@[simp] theorem latchEX_slots (v : Word) (s : State) : (latchEX v s).slots = { s.slots with EX := s.slots.EX.map (Entry.withResult v) } := rfl
@[simp] theorem latchEX_mem (v : Word) (s : State) : (latchEX v s).mem = s.mem := rfl
@[simp] theorem latchEX_prog (v : Word) (s : State) : (latchEX v s).prog = s.prog := rfl
@[simp] theorem latchEX_cache (v : Word) (s : State) : (latchEX v s).cache = s.cache := rfl
@[simp] theorem latchEX_irqFifo (v : Word) (s : State) : (latchEX v s).irqFifo = s.irqFifo := rfl
@[simp] theorem latchEX_fault (v : Word) (s : State) : (latchEX v s).fault = s.fault := rfl
@[simp] theorem latchEX_loaded (v : Word) (s : State) : (latchEX v s).loaded = s.loaded := rfl
@[simp] theorem latchEX_active (v : Word) (s : State) : (latchEX v s).active = s.active := rfl

/-! `latchMEM` (R29). -/

@[simp] theorem latchMEM_params (v : Word) (s : State) : (latchMEM v s).params = s.params := rfl
@[simp] theorem latchMEM_regs (v : Word) (s : State) : (latchMEM v s).regs = s.regs := rfl
@[simp] theorem latchMEM_pc (v : Word) (s : State) : (latchMEM v s).pc = s.pc := rfl
@[simp] theorem latchMEM_cycle (v : Word) (s : State) : (latchMEM v s).cycle = s.cycle := rfl
@[simp] theorem latchMEM_hits (v : Word) (s : State) : (latchMEM v s).hits = s.hits := rfl
@[simp] theorem latchMEM_misses (v : Word) (s : State) : (latchMEM v s).misses = s.misses := rfl
@[simp] theorem latchMEM_pending (v : Word) (s : State) : (latchMEM v s).pending = s.pending := rfl
@[simp] theorem latchMEM_slots (v : Word) (s : State) : (latchMEM v s).slots = { s.slots with MEM := s.slots.MEM.map (Entry.withResult v) } := rfl
@[simp] theorem latchMEM_mem (v : Word) (s : State) : (latchMEM v s).mem = s.mem := rfl
@[simp] theorem latchMEM_prog (v : Word) (s : State) : (latchMEM v s).prog = s.prog := rfl
@[simp] theorem latchMEM_cache (v : Word) (s : State) : (latchMEM v s).cache = s.cache := rfl
@[simp] theorem latchMEM_irqFifo (v : Word) (s : State) : (latchMEM v s).irqFifo = s.irqFifo := rfl
@[simp] theorem latchMEM_fault (v : Word) (s : State) : (latchMEM v s).fault = s.fault := rfl
@[simp] theorem latchMEM_loaded (v : Word) (s : State) : (latchMEM v s).loaded = s.loaded := rfl
@[simp] theorem latchMEM_active (v : Word) (s : State) : (latchMEM v s).active = s.active := rfl

/-! `serveSlot` (R14). -/

@[simp] theorem serveSlot_params (k : Slot) (s : State) : (serveSlot k s).params = s.params := rfl
@[simp] theorem serveSlot_regs (k : Slot) (s : State) : (serveSlot k s).regs = s.regs := rfl
@[simp] theorem serveSlot_pc (k : Slot) (s : State) : (serveSlot k s).pc = s.pc := rfl
@[simp] theorem serveSlot_cycle (k : Slot) (s : State) : (serveSlot k s).cycle = s.cycle := rfl
@[simp] theorem serveSlot_hits (k : Slot) (s : State) : (serveSlot k s).hits = s.hits := rfl
@[simp] theorem serveSlot_misses (k : Slot) (s : State) : (serveSlot k s).misses = s.misses := rfl
@[simp] theorem serveSlot_pending (k : Slot) (s : State) : (serveSlot k s).pending = s.pending := rfl
@[simp] theorem serveSlot_slots (k : Slot) (s : State) : (serveSlot k s).slots = s.slots := rfl
@[simp] theorem serveSlot_mem (k : Slot) (s : State) : (serveSlot k s).mem = s.mem := rfl
@[simp] theorem serveSlot_prog (k : Slot) (s : State) : (serveSlot k s).prog = s.prog := rfl
@[simp] theorem serveSlot_cache (k : Slot) (s : State) : (serveSlot k s).cache = s.cache := rfl
@[simp] theorem serveSlot_irqFifo (k : Slot) (s : State) : (serveSlot k s).irqFifo = s.irqFifo := rfl
@[simp] theorem serveSlot_fault (k : Slot) (s : State) : (serveSlot k s).fault = s.fault := rfl
@[simp] theorem serveSlot_loaded (k : Slot) (s : State) : (serveSlot k s).loaded = s.loaded := rfl
@[simp] theorem serveSlot_active (k : Slot) (s : State) : (serveSlot k s).active = some k := rfl

/-! `raisePending` (R25, R205). -/

@[simp] theorem raisePending_params (s : State) : (raisePending s).params = s.params := rfl
@[simp] theorem raisePending_regs (s : State) : (raisePending s).regs = s.regs := rfl
@[simp] theorem raisePending_pc (s : State) : (raisePending s).pc = s.pc := rfl
@[simp] theorem raisePending_cycle (s : State) : (raisePending s).cycle = s.cycle := rfl
@[simp] theorem raisePending_hits (s : State) : (raisePending s).hits = s.hits := rfl
@[simp] theorem raisePending_misses (s : State) : (raisePending s).misses = s.misses := rfl
@[simp] theorem raisePending_pending (s : State) : (raisePending s).pending = true := rfl
@[simp] theorem raisePending_slots (s : State) : (raisePending s).slots = s.slots := rfl
@[simp] theorem raisePending_mem (s : State) : (raisePending s).mem = s.mem := rfl
@[simp] theorem raisePending_prog (s : State) : (raisePending s).prog = s.prog := rfl
@[simp] theorem raisePending_cache (s : State) : (raisePending s).cache = s.cache := rfl
@[simp] theorem raisePending_irqFifo (s : State) : (raisePending s).irqFifo = s.irqFifo := rfl
@[simp] theorem raisePending_fault (s : State) : (raisePending s).fault = s.fault := rfl
@[simp] theorem raisePending_loaded (s : State) : (raisePending s).loaded = s.loaded := rfl
@[simp] theorem raisePending_active (s : State) : (raisePending s).active = s.active := rfl

/-! `flush` (R146). -/

@[simp] theorem flush_params (s : State) : (flush s).params = s.params := rfl
@[simp] theorem flush_regs (s : State) : (flush s).regs = s.regs := rfl
@[simp] theorem flush_pc (s : State) : (flush s).pc = s.pc := rfl
@[simp] theorem flush_cycle (s : State) : (flush s).cycle = s.cycle + 1 := rfl
@[simp] theorem flush_hits (s : State) : (flush s).hits = s.hits := rfl
@[simp] theorem flush_misses (s : State) : (flush s).misses = s.misses := rfl
@[simp] theorem flush_pending (s : State) : (flush s).pending = s.pending := rfl
@[simp] theorem flush_slots (s : State) : (flush s).slots = Slots.empty := rfl
@[simp] theorem flush_mem (s : State) : (flush s).mem = s.mem := rfl
@[simp] theorem flush_prog (s : State) : (flush s).prog = s.prog := rfl
@[simp] theorem flush_cache (s : State) : (flush s).cache = s.cache := rfl
@[simp] theorem flush_irqFifo (s : State) : (flush s).irqFifo = s.irqFifo := rfl
@[simp] theorem flush_fault (s : State) : (flush s).fault = s.fault := rfl
@[simp] theorem flush_loaded (s : State) : (flush s).loaded = s.loaded := rfl
@[simp] theorem flush_active (s : State) : (flush s).active = none := rfl

/-! `interruptEntry` (R141). -/

@[simp] theorem interruptEntry_params (s : State) : (interruptEntry s).params = s.params := rfl
@[simp] theorem interruptEntry_regs (s : State) : (interruptEntry s).regs = s.regs := rfl
@[simp] theorem interruptEntry_pc (s : State) : (interruptEntry s).pc = s.pc := rfl
@[simp] theorem interruptEntry_cycle (s : State) : (interruptEntry s).cycle = s.cycle + 1 := rfl
@[simp] theorem interruptEntry_hits (s : State) : (interruptEntry s).hits = s.hits := rfl
@[simp] theorem interruptEntry_misses (s : State) : (interruptEntry s).misses = s.misses := rfl
@[simp] theorem interruptEntry_pending (s : State) : (interruptEntry s).pending = false := rfl
@[simp] theorem interruptEntry_slots (s : State) : (interruptEntry s).slots = { s.slots with IF := some ⟨serviceInstruction s.params, none⟩ } := rfl
@[simp] theorem interruptEntry_mem (s : State) : (interruptEntry s).mem = s.mem := rfl
@[simp] theorem interruptEntry_prog (s : State) : (interruptEntry s).prog = s.prog := rfl
@[simp] theorem interruptEntry_cache (s : State) : (interruptEntry s).cache = s.cache := rfl
@[simp] theorem interruptEntry_irqFifo (s : State) : (interruptEntry s).irqFifo = s.irqFifo := rfl
@[simp] theorem interruptEntry_fault (s : State) : (interruptEntry s).fault = s.fault := rfl
@[simp] theorem interruptEntry_loaded (s : State) : (interruptEntry s).loaded = s.loaded := rfl
@[simp] theorem interruptEntry_active (s : State) : (interruptEntry s).active = none := rfl

/-! `stallShift` (R151). -/

@[simp] theorem stallShift_params (s : State) : (stallShift s).params = s.params := rfl
@[simp] theorem stallShift_regs (s : State) : (stallShift s).regs = s.regs := rfl
@[simp] theorem stallShift_pc (s : State) : (stallShift s).pc = s.pc := rfl
@[simp] theorem stallShift_cycle (s : State) : (stallShift s).cycle = s.cycle + 1 := rfl
@[simp] theorem stallShift_hits (s : State) : (stallShift s).hits = s.hits := rfl
@[simp] theorem stallShift_misses (s : State) : (stallShift s).misses = s.misses := rfl
@[simp] theorem stallShift_pending (s : State) : (stallShift s).pending = s.pending := rfl
@[simp] theorem stallShift_slots (s : State) : (stallShift s).slots = { s.slots with WB := s.slots.MEM, MEM := s.slots.EX, EX := none } := rfl
@[simp] theorem stallShift_mem (s : State) : (stallShift s).mem = s.mem := rfl
@[simp] theorem stallShift_prog (s : State) : (stallShift s).prog = s.prog := rfl
@[simp] theorem stallShift_cache (s : State) : (stallShift s).cache = s.cache := rfl
@[simp] theorem stallShift_irqFifo (s : State) : (stallShift s).irqFifo = s.irqFifo := rfl
@[simp] theorem stallShift_fault (s : State) : (stallShift s).fault = s.fault := rfl
@[simp] theorem stallShift_loaded (s : State) : (stallShift s).loaded = s.loaded := rfl
@[simp] theorem stallShift_active (s : State) : (stallShift s).active = none := rfl

/-! `advanceShift` (R155, R156). -/

@[simp] theorem advanceShift_params (s : State) : (advanceShift s).params = s.params := rfl
@[simp] theorem advanceShift_regs (s : State) : (advanceShift s).regs = s.regs := rfl
@[simp] theorem advanceShift_pc (s : State) : (advanceShift s).pc = pcAfterFetch s := rfl
@[simp] theorem advanceShift_cycle (s : State) : (advanceShift s).cycle = s.cycle + 1 := rfl
@[simp] theorem advanceShift_hits (s : State) : (advanceShift s).hits = s.hits := rfl
@[simp] theorem advanceShift_misses (s : State) : (advanceShift s).misses = s.misses := rfl
@[simp] theorem advanceShift_pending (s : State) : (advanceShift s).pending = s.pending := rfl
@[simp] theorem advanceShift_slots (s : State) : (advanceShift s).slots = { IF := fetchEntry s, ID := s.slots.IF, EX := s.slots.ID, MEM := s.slots.EX, WB := s.slots.MEM } := rfl
@[simp] theorem advanceShift_mem (s : State) : (advanceShift s).mem = s.mem := rfl
@[simp] theorem advanceShift_prog (s : State) : (advanceShift s).prog = s.prog := rfl
@[simp] theorem advanceShift_cache (s : State) : (advanceShift s).cache = s.cache := rfl
@[simp] theorem advanceShift_irqFifo (s : State) : (advanceShift s).irqFifo = s.irqFifo := rfl
@[simp] theorem advanceShift_fault (s : State) : (advanceShift s).fault = s.fault := rfl
@[simp] theorem advanceShift_loaded (s : State) : (advanceShift s).loaded = s.loaded := rfl
@[simp] theorem advanceShift_active (s : State) : (advanceShift s).active = none := rfl

/-! `placeForFetch` (assumption 5). -/

@[simp] theorem placeForFetch_params (i : Instr) (s : State) : (placeForFetch i s).params = s.params := rfl
@[simp] theorem placeForFetch_regs (i : Instr) (s : State) : (placeForFetch i s).regs = s.regs := rfl
@[simp] theorem placeForFetch_pc (i : Instr) (s : State) : (placeForFetch i s).pc = s.pc := rfl
@[simp] theorem placeForFetch_cycle (i : Instr) (s : State) : (placeForFetch i s).cycle = s.cycle := rfl
@[simp] theorem placeForFetch_hits (i : Instr) (s : State) : (placeForFetch i s).hits = s.hits := rfl
@[simp] theorem placeForFetch_misses (i : Instr) (s : State) : (placeForFetch i s).misses = s.misses := rfl
@[simp] theorem placeForFetch_pending (i : Instr) (s : State) : (placeForFetch i s).pending = false := rfl
@[simp] theorem placeForFetch_slots (i : Instr) (s : State) : (placeForFetch i s).slots = Slots.empty := rfl
@[simp] theorem placeForFetch_mem (i : Instr) (s : State) : (placeForFetch i s).mem = s.mem := rfl
@[simp] theorem placeForFetch_prog (i : Instr) (s : State) : (placeForFetch i s).prog = putInstruction s.prog s.pc i := rfl
@[simp] theorem placeForFetch_cache (i : Instr) (s : State) : (placeForFetch i s).cache = s.cache := rfl
@[simp] theorem placeForFetch_irqFifo (i : Instr) (s : State) : (placeForFetch i s).irqFifo = s.irqFifo := rfl
@[simp] theorem placeForFetch_fault (i : Instr) (s : State) : (placeForFetch i s).fault = none := rfl
@[simp] theorem placeForFetch_loaded (i : Instr) (s : State) : (placeForFetch i s).loaded = true := rfl
@[simp] theorem placeForFetch_active (i : Instr) (s : State) : (placeForFetch i s).active = none := rfl

/-! `placeForRun` (assumption 5). -/

@[simp] theorem placeForRun_params (i : Instr) (s : State) : (placeForRun i s).params = s.params := rfl
@[simp] theorem placeForRun_regs (i : Instr) (s : State) : (placeForRun i s).regs = s.regs := rfl
@[simp] theorem placeForRun_pc (i : Instr) (s : State) : (placeForRun i s).pc = s.pc + 1 := rfl
@[simp] theorem placeForRun_cycle (i : Instr) (s : State) : (placeForRun i s).cycle = s.cycle := rfl
@[simp] theorem placeForRun_hits (i : Instr) (s : State) : (placeForRun i s).hits = s.hits := rfl
@[simp] theorem placeForRun_misses (i : Instr) (s : State) : (placeForRun i s).misses = s.misses := rfl
@[simp] theorem placeForRun_pending (i : Instr) (s : State) : (placeForRun i s).pending = false := rfl
@[simp] theorem placeForRun_slots (i : Instr) (s : State) : (placeForRun i s).slots = Slots.only (firstActionIn i) ⟨i, none⟩ := rfl
@[simp] theorem placeForRun_mem (i : Instr) (s : State) : (placeForRun i s).mem = s.mem := rfl
@[simp] theorem placeForRun_prog (i : Instr) (s : State) : (placeForRun i s).prog = putInstruction s.prog s.pc i := rfl
@[simp] theorem placeForRun_cache (i : Instr) (s : State) : (placeForRun i s).cache = s.cache := rfl
@[simp] theorem placeForRun_irqFifo (i : Instr) (s : State) : (placeForRun i s).irqFifo = s.irqFifo := rfl
@[simp] theorem placeForRun_fault (i : Instr) (s : State) : (placeForRun i s).fault = none := rfl
@[simp] theorem placeForRun_loaded (i : Instr) (s : State) : (placeForRun i s).loaded = true := rfl
@[simp] theorem placeForRun_active (i : Instr) (s : State) : (placeForRun i s).active = none := rfl

/-! `putPc` (R22, R126). -/

@[simp] theorem putPc_params (k : Nat) (s : State) : (putPc k s).params = s.params := rfl
@[simp] theorem putPc_regs (k : Nat) (s : State) : (putPc k s).regs = s.regs := rfl
@[simp] theorem putPc_pc (k : Nat) (s : State) : (putPc k s).pc = k := rfl
@[simp] theorem putPc_cycle (k : Nat) (s : State) : (putPc k s).cycle = s.cycle := rfl
@[simp] theorem putPc_hits (k : Nat) (s : State) : (putPc k s).hits = s.hits := rfl
@[simp] theorem putPc_misses (k : Nat) (s : State) : (putPc k s).misses = s.misses := rfl
@[simp] theorem putPc_pending (k : Nat) (s : State) : (putPc k s).pending = s.pending := rfl
@[simp] theorem putPc_slots (k : Nat) (s : State) : (putPc k s).slots = s.slots := rfl
@[simp] theorem putPc_mem (k : Nat) (s : State) : (putPc k s).mem = s.mem := rfl
@[simp] theorem putPc_prog (k : Nat) (s : State) : (putPc k s).prog = s.prog := rfl
@[simp] theorem putPc_cache (k : Nat) (s : State) : (putPc k s).cache = s.cache := rfl
@[simp] theorem putPc_irqFifo (k : Nat) (s : State) : (putPc k s).irqFifo = s.irqFifo := rfl
@[simp] theorem putPc_fault (k : Nat) (s : State) : (putPc k s).fault = s.fault := rfl
@[simp] theorem putPc_loaded (k : Nat) (s : State) : (putPc k s).loaded = s.loaded := rfl
@[simp] theorem putPc_active (k : Nat) (s : State) : (putPc k s).active = s.active := rfl

/-! `recordAccess` (R110, R171): the cache and one counter. -/

@[simp] theorem recordAccess_params (a : Nat) (s : State) : (recordAccess a s).params = s.params := rfl
@[simp] theorem recordAccess_regs (a : Nat) (s : State) : (recordAccess a s).regs = s.regs := rfl
@[simp] theorem recordAccess_pc (a : Nat) (s : State) : (recordAccess a s).pc = s.pc := rfl
@[simp] theorem recordAccess_cycle (a : Nat) (s : State) : (recordAccess a s).cycle = s.cycle := rfl
@[simp] theorem recordAccess_hits (a : Nat) (s : State) : (recordAccess a s).hits =
    if (cacheAccess s.params s.cache s.mem a).1 then s.hits + 1 else s.hits := rfl
@[simp] theorem recordAccess_misses (a : Nat) (s : State) : (recordAccess a s).misses =
    if (cacheAccess s.params s.cache s.mem a).1 then s.misses else s.misses + 1 := rfl
@[simp] theorem recordAccess_pending (a : Nat) (s : State) : (recordAccess a s).pending = s.pending := rfl
@[simp] theorem recordAccess_slots (a : Nat) (s : State) : (recordAccess a s).slots = s.slots := rfl
@[simp] theorem recordAccess_mem (a : Nat) (s : State) : (recordAccess a s).mem = s.mem := rfl
@[simp] theorem recordAccess_prog (a : Nat) (s : State) : (recordAccess a s).prog = s.prog := rfl
@[simp] theorem recordAccess_cache (a : Nat) (s : State) : (recordAccess a s).cache =
    (cacheAccess s.params s.cache s.mem a).2 := rfl
@[simp] theorem recordAccess_irqFifo (a : Nat) (s : State) : (recordAccess a s).irqFifo = s.irqFifo := rfl
@[simp] theorem recordAccess_fault (a : Nat) (s : State) : (recordAccess a s).fault = s.fault := rfl
@[simp] theorem recordAccess_loaded (a : Nat) (s : State) : (recordAccess a s).loaded = s.loaded := rfl
@[simp] theorem recordAccess_active (a : Nat) (s : State) : (recordAccess a s).active = s.active := rfl

end Sys2Proof.Machine
end

