-- ==== Sys2Proof/Laws/Ops.lean ====
section
/-! SUPPORT. One lemma per shared operation that says once everything it can do. -/

namespace Sys2Proof.Machine

theorem orFault_eq_next {α : Type} {x : Except Fault α} {k : α → Result} {t : State} :
    orFault x k = .next t ↔ ∃ a, x = .ok a ∧ k a = .next t := by
  cases x <;> simp [orFault]

theorem orFault_ne_refused {α : Type} {x : Except Fault α} {k : α → Result} {r : Refusal}
    (h : ∀ a, k a ≠ .refused r) : orFault x k ≠ .refused r := by
  cases x <;> simp [orFault, h]

theorem andThen_eq_next {r : Result} {k : State → Result} {t : State} :
    andThen r k = .next t ↔ ∃ s, r = .next s ∧ k s = .next t := by
  cases r <;> simp [andThen]

@[simp] theorem orFault_ok {α : Type} (a : α) (k : α → Result) : orFault (.ok a) k = k a := rfl

@[simp] theorem orFault_error {α : Type} (f : Fault) (k : α → Result) : orFault (.error f) k = .fault f := rfl

@[simp] theorem andThen_next (s : State) (k : State → Result) : andThen (.next s) k = k s := rfl

@[simp] theorem andThen_fault (f : Fault) (k : State → Result) : andThen (.fault f) k = .fault f := rfl

/-- A present field (R11). -/
@[simp] theorem need_some {α : Type} (op : Opcode) (field : Field) (v : α) : need op field (some v) = .ok v := rfl

/-- An absent field (R11, R195). -/
@[simp] theorem need_none {α : Type} (op : Opcode) (field : Field) :
    need op field (none : Option α) = .error (.missingOperand op field) := rfl

theorem need_eq_ok {α : Type} {op : Opcode} {field : Field} {f : Option α} {v : α} :
    need op field f = .ok v ↔ f = some v := by
  cases f <;> simp [need]

/-- A named register (R12). -/
@[simp] theorem registerNumber_val (r : Fin 32) : registerNumber (r.val : Int) = .ok r := by
  have h : 0 ≤ (r.val : Int) ∧ (r.val : Int) < 32 := ⟨by omega, by exact_mod_cast r.isLt⟩
  simp only [registerNumber, dif_pos h]
  rfl

/-- An index that names no register (R12, R192). -/
theorem registerNumber_error {i : Int} (h : ¬(0 ≤ i ∧ i < 32)) :
    registerNumber i = .error (.registerBounds i) := by
  simp only [registerNumber, dif_neg h]

theorem registerNumber_eq_ok {i : Int} {r : Fin 32} : registerNumber i = .ok r ↔ i = (r.val : Int) := by
  constructor
  · intro h
    unfold registerNumber at h
    split at h
    case isTrue hi => injection h with h; subst h; exact (Int.toNat_of_nonneg hi.1).symm
    case isFalse => cases h
  · rintro rfl; exact registerNumber_val r

@[simp] theorem readRegister_val (s : State) (r : Fin 32) : readRegister s (r.val : Int) = .ok (s.regs.get r) := by
  simp [readRegister]

theorem readRegister_eq_ok {s : State} {i : Int} {v : Word} :
    readRegister s i = .ok v ↔ ∃ r : Fin 32, i = (r.val : Int) ∧ v = s.regs.get r := by
  unfold readRegister
  cases h : registerNumber i with
  | ok r =>
    rw [registerNumber_eq_ok] at h
    subst h
    simp only [Except.ok.injEq]
    constructor
    · rintro rfl; exact ⟨r, rfl, rfl⟩
    · rintro ⟨r', hr, rfl⟩
      have : r = r' := Fin.ext (by exact_mod_cast hr)
      rw [this]
  | error f =>
    simp only [reduceCtorEq, false_iff, not_exists, not_and]
    rintro r rfl
    simp at h

@[simp] theorem writeRegister_val (r : Fin 32) (v : Word) (s : State) :
    writeRegister (r.val : Int) v s = .ok (putRegister r v s) := by
  simp [writeRegister]

theorem writeRegister_eq_ok {i : Int} {v : Word} {s t : State} :
    writeRegister i v s = .ok t ↔ ∃ r : Fin 32, i = (r.val : Int) ∧ t = putRegister r v s := by
  unfold writeRegister
  cases h : registerNumber i with
  | ok r =>
    rw [registerNumber_eq_ok] at h
    subst h
    simp only [Except.ok.injEq]
    constructor
    · rintro rfl; exact ⟨r, rfl, rfl⟩
    · rintro ⟨r', hr, rfl⟩
      have : r = r' := Fin.ext (by exact_mod_cast hr)
      rw [this]
  | error f =>
    simp only [reduceCtorEq, false_iff, not_exists, not_and]
    rintro r rfl
    simp at h

/-- Reading back a register that was written, whichever it is: none is hard-wired (R20). -/
@[simp] theorem regs_get_set_same (x : Vector Word 32) (r : Fin 32) (v : Word) : (x.set r.val v r.isLt).get r = v := by
  simp [Vector.get_eq_getElem]

/-- A write to one register leaves every other alone. -/
theorem regs_get_set_other {r r' : Fin 32} (h : r' ≠ r) (x : Vector Word 32) (v : Word) :
    (x.set r.val v r.isLt).get r' = x.get r' := by
  have : r.val ≠ r'.val := fun e => h (Fin.ext e.symm)
  simp [Vector.get_eq_getElem, this]

/-- An address of the array (R12, R51). -/
@[simp] theorem checkAddress_val (a : Fin 1024) : checkAddress (a.val : Int) = .ok a.val := by
  have h : 0 ≤ (a.val : Int) ∧ (a.val : Int) < 1024 := ⟨by omega, by exact_mod_cast a.isLt⟩
  simp only [checkAddress, if_pos h]
  rfl

theorem checkAddress_error {a : Int} (h : ¬(0 ≤ a ∧ a < 1024)) :
    checkAddress a = .error (.memoryBounds a) := by
  simp only [checkAddress, if_neg h]

theorem checkAddress_eq_ok {a : Int} {k : Nat} : checkAddress a = .ok k ↔ a = (k : Int) ∧ k < 1024 := by
  unfold checkAddress
  split
  case isTrue h =>
    have h2 : a.toNat < 1024 := (Int.toNat_lt h.1).mpr h.2
    simp only [Except.ok.injEq]
    constructor
    · rintro rfl; exact ⟨(Int.toNat_of_nonneg h.1).symm, h2⟩
    · rintro ⟨rfl, -⟩; rfl
  case isFalse h =>
    simp only [reduceCtorEq, false_iff, not_and]
    rintro rfl hk
    exact h ⟨by omega, by exact_mod_cast hk⟩

theorem setPc_eq_ok {t : Int} {s s' : State} :
    setPc t s = .ok s' ↔ ∃ k : Nat, t = (k : Int) ∧ k ≤ 2147483647 ∧ s' = putPc k s := by
  unfold setPc
  split
  case isTrue h =>
    simp only [Except.ok.injEq]
    constructor
    · rintro rfl; exact ⟨t.toNat, (Int.toNat_of_nonneg h.1).symm, Int.toNat_le.mpr h.2, rfl⟩
    · rintro ⟨k, rfl, -, rfl⟩; rfl
  case isFalse h =>
    simp only [reduceCtorEq, false_iff, not_exists, not_and]
    rintro k rfl hk
    exact absurd ⟨by omega, by exact_mod_cast hk⟩ h

theorem setPc_ok {t : Nat} (h : t ≤ 2147483647) (s : State) : setPc (t : Int) s = .ok (putPc t s) :=
  setPc_eq_ok.mpr ⟨t, rfl, h, rfl⟩

theorem setPc_error {t : Int} (h : ¬(0 ≤ t ∧ t ≤ 2147483647)) (s : State) :
    setPc t s = .error (.pcBounds t) := by
  simp only [setPc, if_neg h]

/-- The exact results narrowed to a word are the operations of the word (R106). -/
theorem wrap_toInt (a : Word) : wrap a.toInt = a := BitVec.ofInt_toInt

/-- ADD is the addition of the word (R100, R106). -/
theorem sum_eq_add (a b : Word) : sum a b = a + b := by
  simp [sum, wrap, BitVec.ofInt_add]

/-- SUB is the subtraction of the word (R101, R106). -/
theorem difference_eq_sub (a b : Word) : difference a b = a - b := by
  apply BitVec.eq_of_toInt_eq
  simp [difference, wrap, BitVec.toInt_ofInt, BitVec.toInt_sub]

/-- MUL is the multiplication of the word (R102, R106). -/
theorem product_eq_mul (a b : Word) : product a b = a * b := by
  simp [product, wrap, BitVec.ofInt_mul]

/-- What a source register operand can be (R12, R195). -/
theorem sourceRegister_eq_ok {op : Opcode} {field : Field} {f : Option Int} {s : State} {v : Word} :
    sourceRegister op field f s = .ok v ↔ ∃ r : Fin 32, f = some (r.val : Int) ∧ v = s.regs.get r := by
  cases f with
  | none => simp [sourceRegister]
  | some i => simp [sourceRegister, readRegister_eq_ok]

/-- What the second operand can be (R103). -/
theorem secondOperand_eq_ok {op : Opcode} {o : Operands} {s : State} {v : Word} :
    secondOperand op o s = .ok v ↔
      (∃ r : Fin 32, o.rs2 = some (r.val : Int) ∧ v = s.regs.get r) ∨
        (o.rs2 = none ∧ ∃ n, o.imm = some n ∧ v = wrap n) := by
  unfold secondOperand
  cases o.rs2 with
  | some i => simp [readRegister_eq_ok]
  | none =>
    cases o.imm with
    | none => simp
    | some n => simp [eq_comm]

/-- What the effective address can be (R114). -/
theorem effectiveAddress_eq_ok {op : Opcode} {o : Operands} {a : Nat} :
    effectiveAddress op o = .ok a ↔ o.imm = some (a : Int) ∧ a < 1024 := by
  unfold effectiveAddress
  cases o.imm with
  | none => simp
  | some n => simp [checkAddress_eq_ok]

/-- What a taken branch does (R120). -/
theorem branchTo_eq_ok {op : Opcode} {o : Operands} {s t : State} :
    branchTo op o s = .ok t ↔
      ∃ d : Int, ∃ k : Nat, o.imm = some d ∧ (s.pc : Int) + d = (k : Int) ∧ k ≤ 2147483647 ∧ t = putPc k s := by
  unfold branchTo
  cases o.imm with
  | none => simp
  | some d => simp [setPc_eq_ok]

/-- What a jump does (R122). -/
theorem jumpTo_eq_ok {op : Opcode} {o : Operands} {s t : State} :
    jumpTo op o s = .ok t ↔ ∃ k : Nat, o.imm = some (k : Int) ∧ k ≤ 2147483647 ∧ t = putPc k s := by
  unfold jumpTo
  cases o.imm with
  | none => simp
  | some d => simp [setPc_eq_ok]

/-- What a write-back does (R143). -/
theorem commitResult_eq_next {op : Opcode} {o : Operands} {s t : State} :
    commitResult op o s = .next t ↔
      ∃ r : Fin 32, ∃ v, o.rd = some (r.val : Int) ∧ resultWB s = some v ∧ t = putRegister r v s := by
  simp only [commitResult, orFault_eq_next, need_eq_ok, writeRegister_eq_ok, Host.Outcome.next.injEq]
  constructor
  · rintro ⟨i, hi, v, hv, _, ⟨r, rfl, rfl⟩, rfl⟩; exact ⟨r, v, hi, hv, rfl⟩
  · rintro ⟨r, v, hi, hv, rfl⟩; exact ⟨_, hi, v, hv, _, ⟨r, rfl, rfl⟩, rfl⟩

/-- What the EX action of an arithmetic instruction does (R100 to R102). -/
theorem arithmeticEX_eq_next {op : Opcode} {f : Word → Word → Word} {o : Operands} {s t : State} :
    arithmeticEX op f o s = .next t ↔
      ∃ r : Fin 32, ∃ b, o.rs1 = some (r.val : Int) ∧ secondOperand op o s = .ok b ∧
        t = latchEX (f (s.regs.get r) b) s := by
  simp only [arithmeticEX, orFault_eq_next, sourceRegister_eq_ok, Host.Outcome.next.injEq]
  constructor
  · rintro ⟨_, ⟨r, hr, rfl⟩, b, hb, rfl⟩; exact ⟨r, b, hr, hb, rfl⟩
  · rintro ⟨r, b, hr, hb, rfl⟩; exact ⟨_, ⟨r, hr, rfl⟩, b, hb, rfl⟩

/-- What the EX action of a conditional branch does (R120, R121). -/
theorem branchEX_eq_next {op : Opcode} {cond : Word → Word → Bool} {o : Operands} {s t : State} :
    branchEX op cond o s = .next t ↔
      ∃ r1 r2 : Fin 32, o.rs1 = some (r1.val : Int) ∧ o.rs2 = some (r2.val : Int) ∧
        ((cond (s.regs.get r1) (s.regs.get r2) = false ∧ t = s) ∨
          (cond (s.regs.get r1) (s.regs.get r2) = true ∧ ∃ d : Int, ∃ k : Nat, o.imm = some d ∧
            (s.pc : Int) + d = (k : Int) ∧ k ≤ 2147483647 ∧ t = flush (putPc k s))) := by
  simp only [branchEX, orFault_eq_next, sourceRegister_eq_ok]
  constructor
  · rintro ⟨_, ⟨r1, h1, rfl⟩, _, ⟨r2, h2, rfl⟩, h⟩
    refine ⟨r1, r2, h1, h2, ?_⟩
    cases hc : cond (s.regs.get r1) (s.regs.get r2) with
    | false => simp only [hc, Bool.false_eq_true, if_false, Host.Outcome.next.injEq] at h; exact .inl ⟨rfl, h.symm⟩
    | true =>
      simp only [hc, if_true, orFault_eq_next, branchTo_eq_ok, Host.Outcome.next.injEq] at h
      obtain ⟨_, ⟨d, k, hd, hk, hm, rfl⟩, rfl⟩ := h
      exact .inr ⟨rfl, d, k, hd, hk, hm, rfl⟩
  · rintro ⟨r1, r2, h1, h2, h⟩
    refine ⟨_, ⟨r1, h1, rfl⟩, _, ⟨r2, h2, rfl⟩, ?_⟩
    rcases h with ⟨hc, rfl⟩ | ⟨hc, d, k, hd, hk, hm, rfl⟩
    · simp [hc]
    · simp only [hc, if_true, orFault_eq_next, branchTo_eq_ok, Host.Outcome.next.injEq]
      exact ⟨_, ⟨d, k, hd, hk, hm, rfl⟩, rfl⟩

/-- What the MEM action of LD does (R110). -/
theorem loadMEM_eq_next {o : Operands} {s t : State} :
    loadMEM o s = .next t ↔
      ∃ a : Nat, o.imm = some (a : Int) ∧ a < 1024 ∧ t = latchMEM (memRead s a) (recordAccess a s) := by
  simp only [loadMEM, orFault_eq_next, effectiveAddress_eq_ok, Host.Outcome.next.injEq]
  constructor
  · rintro ⟨a, ⟨ha, hl⟩, rfl⟩; exact ⟨a, ha, hl, rfl⟩
  · rintro ⟨a, ha, hl, rfl⟩; exact ⟨a, ⟨ha, hl⟩, rfl⟩

/-- What the MEM action of ST does (R112). -/
theorem storeMEM_eq_next {o : Operands} {s t : State} :
    storeMEM o s = .next t ↔
      ∃ a : Nat, ∃ r : Fin 32, o.imm = some (a : Int) ∧ a < 1024 ∧ o.rs1 = some (r.val : Int) ∧
        t = memWrite a (s.regs.get r) s := by
  simp only [storeMEM, orFault_eq_next, effectiveAddress_eq_ok, sourceRegister_eq_ok, Host.Outcome.next.injEq]
  constructor
  · rintro ⟨a, ⟨ha, hl⟩, _, ⟨r, hr, rfl⟩, rfl⟩; exact ⟨a, r, ha, hl, hr, rfl⟩
  · rintro ⟨a, r, ha, hl, hr, rfl⟩; exact ⟨a, ⟨ha, hl⟩, _, ⟨r, hr, rfl⟩, rfl⟩

end Sys2Proof.Machine
end

