-- ==== Sys2Proof/Laws/Exec.lean ====
section
/-! SUPPORT. Everything an instruction can do in the slot being served: one inversion lemma per slot, from which
the properties of `exec` and of `step` follow without unfolding a meaning. -/

namespace Sys2Proof.Machine

/-! The action of each instruction in each slot where the table of R147 gives it one. -/

theorem exec_add_EX {o : Operands} {s : State} (h : s.active = some .EX) :
    exec (.add o) s = arithmeticEX .ADD sum o s := by
  simp only [exec, execAdd, arithmetic, h]

theorem exec_sub_EX {o : Operands} {s : State} (h : s.active = some .EX) :
    exec (.sub o) s = arithmeticEX .SUB difference o s := by
  simp only [exec, execSub, arithmetic, h]

theorem exec_mul_EX {o : Operands} {s : State} (h : s.active = some .EX) :
    exec (.mul o) s = arithmeticEX .MUL product o s := by
  simp only [exec, execMul, arithmetic, h]

theorem exec_add_WB {o : Operands} {s : State} (h : s.active = some .WB) :
    exec (.add o) s = commitResult .ADD o s := by
  simp only [exec, execAdd, arithmetic, h]

theorem exec_sub_WB {o : Operands} {s : State} (h : s.active = some .WB) :
    exec (.sub o) s = commitResult .SUB o s := by
  simp only [exec, execSub, arithmetic, h]

theorem exec_mul_WB {o : Operands} {s : State} (h : s.active = some .WB) :
    exec (.mul o) s = commitResult .MUL o s := by
  simp only [exec, execMul, arithmetic, h]

theorem exec_ld_WB {o : Operands} {s : State} (h : s.active = some .WB) :
    exec (.ld o) s = commitResult .LD o s := by
  simp only [exec, execLd, h]

theorem exec_ld_MEM {o : Operands} {s : State} (h : s.active = some .MEM) :
    exec (.ld o) s = loadMEM o s := by
  simp only [exec, execLd, h]

theorem exec_st_MEM {o : Operands} {s : State} (h : s.active = some .MEM) :
    exec (.st o) s = storeMEM o s := by
  simp only [exec, execSt, h]

theorem exec_beq_EX {o : Operands} {s : State} (h : s.active = some .EX) :
    exec (.beq o) s = branchEX .BEQ equalCondition o s := by
  simp only [exec, execBeq, h]

theorem exec_bne_EX {o : Operands} {s : State} (h : s.active = some .EX) :
    exec (.bne o) s = branchEX .BNE differCondition o s := by
  simp only [exec, execBne, h]

theorem exec_jmp_EX {o : Operands} {s : State} (h : s.active = some .EX) :
    exec (.jmp o) s = orFault (jumpTo .JMP o s) fun s' => .next (flush s') := by
  simp only [exec, execJmp, h]

theorem exec_int_EX {o : Operands} {s : State} (h : s.active = some .EX) :
    exec (.int o) s = .next (flush (raisePending s)) := by
  simp only [exec, execInt, h]

/-- What the WB action of an instruction can do (R143). -/
theorem exec_WB_cases {i : Instr} {s t : State} (hs : s.active = some .WB) (h : exec i s = .next t) :
    (commitsResult i = true ∧ ∃ r : Fin 32, ∃ v, i.operands.rd = some (r.val : Int) ∧ resultWB s = some v ∧
        t = putRegister r v s) ∨
      (commitsResult i = false ∧ t = s) := by
  cases i <;>
    simp only [exec, execAdd, execSub, execMul, execLd, execSt, execBeq, execBne, execJmp, execInt, arithmetic, hs,
      commitResult_eq_next, Host.Outcome.next.injEq] at h <;>
    first
    | exact .inl ⟨rfl, h⟩
    | exact .inr ⟨rfl, h.symm⟩

/-- What the MEM action of an instruction can do (R144). -/
theorem exec_MEM_cases {i : Instr} {s t : State} (hs : s.active = some .MEM) (h : exec i s = .next t) :
    (∃ o, ∃ a : Nat, i = .ld o ∧ o.imm = some (a : Int) ∧ a < 1024 ∧
        t = latchMEM (memRead s a) (recordAccess a s)) ∨
      (∃ o, ∃ a : Nat, ∃ r : Fin 32, i = .st o ∧ o.imm = some (a : Int) ∧ a < 1024 ∧
        o.rs1 = some (r.val : Int) ∧ t = memWrite a (s.regs.get r) s) ∨
      (i.opcode ≠ .LD ∧ i.opcode ≠ .ST ∧ t = s) := by
  cases i with
  | ld o =>
    simp only [exec, execLd, hs, loadMEM_eq_next] at h
    obtain ⟨a, ha⟩ := h
    exact .inl ⟨o, a, rfl, ha⟩
  | st o =>
    simp only [exec, execSt, hs, storeMEM_eq_next] at h
    obtain ⟨a, r, ha⟩ := h
    exact .inr (.inl ⟨o, a, r, rfl, ha⟩)
  | _ =>
    simp only [exec, execAdd, execSub, execMul, execBeq, execBne, execJmp, execInt, arithmetic, hs,
      Host.Outcome.next.injEq] at h
    exact .inr (.inr ⟨by simp [Instr.opcode], by simp [Instr.opcode], h.symm⟩)

/-- What the EX action of an instruction can do (R145): latch a result, transfer control with a flush, raise the
pending flag with a flush, or nothing. -/
theorem exec_EX_cases {i : Instr} {s t : State} (hs : s.active = some .EX) (h : exec i s = .next t) :
    (latchesInEX i = true ∧ ∃ v, t = latchEX v s) ∨
      ((i.opcode = .BEQ ∨ i.opcode = .BNE ∨ i.opcode = .JMP) ∧ ∃ k : Nat, k ≤ 2147483647 ∧ t = flush (putPc k s)) ∨
      (i.opcode = .INT ∧ t = flush (raisePending s)) ∨
      (latchesInEX i = false ∧ endsInEX i = false ∧ t = s) := by
  cases i with
  | add o | sub o | mul o =>
    simp only [exec, execAdd, execSub, execMul, arithmetic, hs, arithmeticEX_eq_next] at h
    obtain ⟨r, b, -, -, rfl⟩ := h
    exact .inl ⟨rfl, _, rfl⟩
  | ld o | st o =>
    simp only [exec, execLd, execSt, hs, Host.Outcome.next.injEq] at h
    exact .inr (.inr (.inr ⟨rfl, rfl, h.symm⟩))
  | beq o | bne o =>
    simp only [exec, execBeq, execBne, hs, branchEX_eq_next] at h
    obtain ⟨r1, r2, -, -, ⟨-, rfl⟩ | ⟨-, d, k, -, -, hk, rfl⟩⟩ := h
    · exact .inr (.inr (.inr ⟨rfl, rfl, rfl⟩))
    · exact .inr (.inl ⟨by simp [Instr.opcode], k, hk, rfl⟩)
  | jmp o =>
    simp only [exec, execJmp, hs, orFault_eq_next, jumpTo_eq_ok, Host.Outcome.next.injEq] at h
    obtain ⟨_, ⟨k, -, hk, rfl⟩, rfl⟩ := h
    exact .inr (.inl ⟨by simp [Instr.opcode], k, hk, rfl⟩)
  | int o =>
    simp only [exec, execInt, hs, Host.Outcome.next.injEq] at h
    exact .inr (.inr (.inl ⟨rfl, h.symm⟩))

/-- No instruction is ever refused (R86, R145). -/
theorem exec_ne_refused (i : Instr) (s : State) (r : Refusal) : exec i s ≠ .refused r := by
  have hb : ∀ op cond o, branchEX op cond o s ≠ .refused r := by
    intro op cond o
    refine orFault_ne_refused fun a => orFault_ne_refused fun b => ?_
    split
    · exact orFault_ne_refused fun _ => by simp
    · simp
  have hc : ∀ op o, commitResult op o s ≠ .refused r := fun op o =>
    orFault_ne_refused fun _ => orFault_ne_refused fun _ => orFault_ne_refused fun _ => by simp
  have ha : ∀ op f o, arithmeticEX op f o s ≠ .refused r := fun op f o =>
    orFault_ne_refused fun _ => orFault_ne_refused fun _ => by simp
  have hl : ∀ o, loadMEM o s ≠ .refused r := fun o => orFault_ne_refused fun _ => by simp
  have ht : ∀ o, storeMEM o s ≠ .refused r := fun o =>
    orFault_ne_refused fun _ => orFault_ne_refused fun _ => by simp
  have hj : ∀ o, orFault (jumpTo .JMP o s) (fun s' => .next (flush s')) ≠ .refused r := fun o =>
    orFault_ne_refused fun _ => by simp
  cases i <;>
    simp only [exec, execAdd, execSub, execMul, execLd, execSt, execBeq, execBne, execJmp, execInt, arithmetic] <;>
    split <;> first | exact hb _ _ _ | exact hc _ _ | exact ha _ _ _ | exact hl _ | exact ht _ | exact hj _ | simp

/-! Which faults a step raises (R191): one lemma per operation that can raise one. -/

theorem orFault_eq_fault {α : Type} {x : Except Fault α} {k : α → Result} {f : Fault} :
    orFault x k = .fault f ↔ x = .error f ∨ ∃ a, x = .ok a ∧ k a = .fault f := by
  cases x <;> simp [orFault]

theorem andThen_eq_fault {r : Result} {k : State → Result} {f : Fault} :
    andThen r k = .fault f ↔ r = .fault f ∨ ∃ s, r = .next s ∧ k s = .fault f := by
  cases r <;> simp [andThen]

theorem need_raises {α : Type} {op : Opcode} {field : Field} {v : Option α} {f : Fault}
    (h : need op field v = .error f) : f.raisedByStep = true := by
  cases v <;> simp only [need] at h <;> cases h
  rfl

theorem readRegister_raises {s : State} {i : Int} {f : Fault} (h : readRegister s i = .error f) :
    f.raisedByStep = true := by
  unfold readRegister registerNumber at h
  split at h <;> simp_all
  rename_i hr
  split at hr <;> simp_all [Fault.raisedByStep]
  rw [← hr]

theorem writeRegister_raises {s : State} {i : Int} {v : Word} {f : Fault} (h : writeRegister i v s = .error f) :
    f.raisedByStep = true := by
  unfold writeRegister registerNumber at h
  split at h <;> simp_all
  rename_i hr
  split at hr <;> simp_all [Fault.raisedByStep]
  rw [← hr]

theorem sourceRegister_raises {op : Opcode} {field : Field} {i : Option Int} {s : State} {f : Fault}
    (h : sourceRegister op field i s = .error f) : f.raisedByStep = true := by
  unfold sourceRegister at h
  split at h
  · exact readRegister_raises h
  · rename_i hn; cases h; exact need_raises hn

theorem secondOperand_raises {op : Opcode} {o : Operands} {s : State} {f : Fault}
    (h : secondOperand op o s = .error f) : f.raisedByStep = true := by
  unfold secondOperand at h
  split at h
  · exact readRegister_raises h
  · split at h
    · cases h
    · rename_i hn; cases h; exact need_raises hn

theorem effectiveAddress_raises {op : Opcode} {o : Operands} {f : Fault} (h : effectiveAddress op o = .error f) :
    f.raisedByStep = true := by
  unfold effectiveAddress at h
  split at h
  · unfold checkAddress at h
    split at h <;> cases h
    rfl
  · rename_i hn; cases h; exact need_raises hn

theorem setPc_raises {t : Int} {s : State} {f : Fault} (h : setPc t s = .error f) : f.raisedByStep = true := by
  unfold setPc at h
  split at h <;> cases h
  rfl

theorem branchTo_raises {op : Opcode} {o : Operands} {s : State} {f : Fault} (h : branchTo op o s = .error f) :
    f.raisedByStep = true := by
  unfold branchTo at h
  split at h
  · exact setPc_raises h
  · rename_i hn; cases h; exact need_raises hn

theorem jumpTo_raises {op : Opcode} {o : Operands} {s : State} {f : Fault} (h : jumpTo op o s = .error f) :
    f.raisedByStep = true := by
  unfold jumpTo at h
  split at h
  · exact setPc_raises h
  · rename_i hn; cases h; exact need_raises hn

theorem commitResult_raises {op : Opcode} {o : Operands} {s : State} {f : Fault}
    (h : commitResult op o s = .fault f) : f.raisedByStep = true := by
  simp only [commitResult, orFault_eq_fault, reduceCtorEq, and_false, exists_false, or_false] at h
  rcases h with h | ⟨i, -, h | ⟨v, -, h⟩⟩
  · exact need_raises h
  · exact need_raises h
  · exact writeRegister_raises h

theorem arithmeticEX_raises {op : Opcode} {g : Word → Word → Word} {o : Operands} {s : State} {f : Fault}
    (h : arithmeticEX op g o s = .fault f) : f.raisedByStep = true := by
  simp only [arithmeticEX, orFault_eq_fault, reduceCtorEq, and_false, exists_false, or_false] at h
  rcases h with h | ⟨a, -, h⟩
  · exact sourceRegister_raises h
  · exact secondOperand_raises h

theorem loadMEM_raises {o : Operands} {s : State} {f : Fault} (h : loadMEM o s = .fault f) :
    f.raisedByStep = true := by
  simp only [loadMEM, orFault_eq_fault, reduceCtorEq, and_false, exists_false, or_false] at h
  exact effectiveAddress_raises h

theorem storeMEM_raises {o : Operands} {s : State} {f : Fault} (h : storeMEM o s = .fault f) :
    f.raisedByStep = true := by
  simp only [storeMEM, orFault_eq_fault, reduceCtorEq, and_false, exists_false, or_false] at h
  rcases h with h | ⟨a, -, h⟩
  · exact effectiveAddress_raises h
  · exact sourceRegister_raises h

theorem branchEX_raises {op : Opcode} {cond : Word → Word → Bool} {o : Operands} {s : State} {f : Fault}
    (h : branchEX op cond o s = .fault f) : f.raisedByStep = true := by
  simp only [branchEX, orFault_eq_fault] at h
  rcases h with h | ⟨a, -, h | ⟨b, -, h⟩⟩
  · exact sourceRegister_raises h
  · exact sourceRegister_raises h
  · split at h
    · simp only [orFault_eq_fault, reduceCtorEq, and_false, exists_false, or_false] at h
      exact branchTo_raises h
    · cases h

/-- A stage action raises only the faults that R191 gives a step. -/
theorem exec_raises {i : Instr} {s : State} {f : Fault} (h : exec i s = .fault f) : f.raisedByStep = true := by
  cases i <;>
    simp only [exec, execAdd, execSub, execMul, execLd, execSt, execBeq, execBne, execJmp, execInt, arithmetic] at h <;>
    split at h <;>
    first
    | cases h
    | exact commitResult_raises h
    | exact arithmeticEX_raises h
    | exact loadMEM_raises h
    | exact storeMEM_raises h
    | exact branchEX_raises h
    | (simp only [orFault_eq_fault, reduceCtorEq, and_false, exists_false, or_false] at h; exact jumpTo_raises h)

end Sys2Proof.Machine
end

