-- ==== Sys2Proof/Laws/Memory.lean ====
section
/-! SUPPORT. The laws of data memory: a read after a write gives the value written, a write leaves every other
address alone and keeps the canonical form. -/

namespace Sys2Proof.Machine

theorem Memory.read_nil (a : Nat) : Memory.read [] a = seedWord a := rfl

theorem Memory.read_cons (b : Nat) (w : Word) (m : Memory) (a : Nat) :
    Memory.read ((b, w) :: m) a = if a = b then w else Memory.read m a := rfl

theorem Memory.wfFrom_cons {low a : Nat} {v : Word} {m : Memory} :
    Memory.wfFrom low ((a, v) :: m) = true ↔
      low ≤ a ∧ a < 1024 ∧ v ≠ seedWord a ∧ Memory.wfFrom (a + 1) m = true := by
  simp only [Memory.wfFrom, Bool.and_eq_true, decide_eq_true_eq, and_assoc]

theorem Memory.wfFrom_mono {low high : Nat} (h : low ≤ high) :
    ∀ {m : Memory}, Memory.wfFrom high m = true → Memory.wfFrom low m = true
  | [], _ => rfl
  | (_, _) :: _, hm => by
    rw [Memory.wfFrom_cons] at hm ⊢
    exact ⟨h.trans hm.1, hm.2⟩

/-- Below every listed address, memory reads as the seed. -/
theorem Memory.read_below {a low : Nat} (h : a < low) :
    ∀ {m : Memory}, Memory.wfFrom low m = true → Memory.read m a = seedWord a
  | [], _ => rfl
  | (b, w) :: m, hm => by
    rw [Memory.wfFrom_cons] at hm
    rw [Memory.read_cons, if_neg (by omega)]
    exact Memory.read_below (by omega) hm.2.2.2

theorem Memory.read_push_same {a low : Nat} {v : Word} {m : Memory} (ha : a < low)
    (hm : Memory.wfFrom low m = true) : Memory.read (Memory.push a v m) a = v := by
  unfold Memory.push
  split
  case isTrue h => rw [h]; exact Memory.read_below ha hm
  case isFalse => simp [Memory.read_cons]

theorem Memory.read_push_other {a a' : Nat} {v : Word} {m : Memory} (h : a' ≠ a) :
    Memory.read (Memory.push a v m) a' = Memory.read m a' := by
  unfold Memory.push
  split
  · rfl
  · rw [Memory.read_cons, if_neg h]

theorem Memory.wf_push {a low : Nat} {v : Word} {m : Memory} (h : low ≤ a) (ha : a < 1024)
    (hm : Memory.wfFrom (a + 1) m = true) : Memory.wfFrom low (Memory.push a v m) = true := by
  unfold Memory.push
  split
  · exact Memory.wfFrom_mono (by omega) hm
  case isFalse hv => exact Memory.wfFrom_cons.mpr ⟨h, ha, hv, hm⟩

/-- A read after a write to the same address, in a canonical memory. -/
theorem Memory.read_write_same {a low : Nat} {v : Word} :
    ∀ {m : Memory}, Memory.wfFrom low m = true → Memory.read (Memory.write m a v) a = v
  | [], _ => Memory.read_push_same (Nat.lt_succ_self a) (by rfl)
  | (b, w) :: m, hm => by
    have h := Memory.wfFrom_cons.mp hm
    unfold Memory.write
    split
    case isTrue hab => exact Memory.read_push_same hab (Memory.wfFrom_cons.mpr ⟨Nat.le_refl b, h.2⟩)
    case isFalse =>
      split
      case isTrue hab => subst hab; exact Memory.read_push_same (Nat.lt_succ_self a) h.2.2.2
      case isFalse hab =>
        rw [Memory.read_cons, if_neg hab]
        exact Memory.read_write_same h.2.2.2

/-- A write leaves every other address alone, whatever the memory. -/
theorem Memory.read_write_other {a a' : Nat} {v : Word} (h : a' ≠ a) :
    ∀ {m : Memory}, Memory.read (Memory.write m a v) a' = Memory.read m a'
  | [] => Memory.read_push_other h
  | (b, w) :: m => by
    unfold Memory.write
    split
    · exact Memory.read_push_other h
    · split
      case isTrue hab =>
        subst hab
        rw [Memory.read_push_other h, Memory.read_cons, if_neg h]
      case isFalse => rw [Memory.read_cons, Memory.read_cons, Memory.read_write_other h]

/-- A write above a lower bound keeps the canonical form above it. -/
theorem Memory.wfFrom_write {a low : Nat} {v : Word} (hl : low ≤ a) (ha : a < 1024) :
    ∀ {m : Memory}, Memory.wfFrom low m = true → Memory.wfFrom low (Memory.write m a v) = true
  | [], _ => Memory.wf_push hl ha rfl
  | (b, w) :: m, hm => by
    have h := Memory.wfFrom_cons.mp hm
    unfold Memory.write
    split
    case isTrue hab =>
      exact Memory.wf_push hl ha (Memory.wfFrom_cons.mpr ⟨hab, h.2⟩)
    case isFalse =>
      split
      case isTrue hab => subst hab; exact Memory.wf_push hl ha h.2.2.2
      case isFalse =>
        exact Memory.wfFrom_cons.mpr
          ⟨h.1, h.2.1, h.2.2.1, Memory.wfFrom_write (by omega) ha h.2.2.2⟩

/-- Every memory operation keeps the canonical form: `write` is the only one that changes memory. -/
theorem Memory.wf_write {a : Nat} {v : Word} {m : Memory} (ha : a < 1024) (hm : m.wf = true) :
    (m.write a v).wf = true :=
  Memory.wfFrom_write (Nat.zero_le a) ha hm

/-- The memory a load leaves has the canonical form. -/
theorem Memory.wf_nil : Memory.wf [] = true := rfl

end Sys2Proof.Machine
end

