-- ==== Sys2Proof/Laws/PerInstr.lean ====
section
/-! SUPPORT. A fact about every instruction as syntax, made per instruction. -/

namespace Sys2Proof.Laws.OpcodeRow

/-- The word of every record of an opcode carries that opcode's row of spec/opcode_table.json: its top four bits, the
bits under the mask `0xF000000000000000`, are those of the row's `match` (R80), whatever fields are present. -/
def Statement (i : Instr) : Prop :=
  (encodeWord i).extractLsb' 60 4 =
    match i with
    | .add _ => 0x1#4
    | .sub _ => 0x2#4
    | .mul _ => 0x3#4
    | .ld _ => 0x4#4
    | .st _ => 0x5#4
    | .beq _ => 0x6#4
    | .bne _ => 0x7#4
    | .jmp _ => 0x8#4
    | .int _ => 0x9#4

theorem add (o : Operands) : Statement (.add o) := opcField_encodeWord (.add o)

theorem sub (o : Operands) : Statement (.sub o) := opcField_encodeWord (.sub o)

theorem mul (o : Operands) : Statement (.mul o) := opcField_encodeWord (.mul o)

theorem ld (o : Operands) : Statement (.ld o) := opcField_encodeWord (.ld o)

theorem st (o : Operands) : Statement (.st o) := opcField_encodeWord (.st o)

theorem beq (o : Operands) : Statement (.beq o) := opcField_encodeWord (.beq o)

theorem bne (o : Operands) : Statement (.bne o) := opcField_encodeWord (.bne o)

theorem jmp (o : Operands) : Statement (.jmp o) := opcField_encodeWord (.jmp o)

theorem int (o : Operands) : Statement (.int o) := opcField_encodeWord (.int o)

end Sys2Proof.Laws.OpcodeRow
end

