-- ==== Sys2Proof/Laws/Step.lean ====
section
/-! SUPPORT. Everything a step can do: the inversion of `step` (R140), stage by stage. -/

namespace Sys2Proof.Machine

/-- What the WB part of a step can do. -/
theorem serve_WB_cases {s t : State} (h : serve exec .WB s = .next t) :
    (∃ e, ∃ r : Fin 32, ∃ v, s.slots.WB = some e ∧ commitsResult e.instr = true ∧
        e.instr.operands.rd = some (r.val : Int) ∧ e.result = some v ∧ t = putRegister r v (serveSlot .WB s)) ∨
      (s.slots.WB.all (fun e => !commitsResult e.instr) = true ∧ t = serveSlot .WB s) := by
  unfold serve at h
  cases hw : s.slots.WB with
  | none => simp only [Slots.get, hw, Host.Outcome.next.injEq] at h; exact .inr ⟨rfl, h.symm⟩
  | some e =>
    simp only [Slots.get, hw] at h
    rcases exec_WB_cases rfl h with ⟨hc, r, v, hr, hv, rfl⟩ | ⟨hc, rfl⟩
    · exact .inl ⟨e, r, v, rfl, hc, hr, by simpa [resultWB, hw] using hv, rfl⟩
    · exact .inr ⟨by simp [hc], rfl⟩

/-- What the MEM part of a step can do. -/
theorem serve_MEM_cases {s t : State} (h : serve exec .MEM s = .next t) :
    (∃ e o, ∃ a : Nat, s.slots.MEM = some e ∧ e.instr = .ld o ∧ o.imm = some (a : Int) ∧ a < 1024 ∧
        t = latchMEM (memRead s a) (recordAccess a (serveSlot .MEM s))) ∨
      (∃ e o, ∃ a : Nat, ∃ r : Fin 32, s.slots.MEM = some e ∧ e.instr = .st o ∧ o.imm = some (a : Int) ∧
        a < 1024 ∧ o.rs1 = some (r.val : Int) ∧ t = memWrite a (s.regs.get r) (serveSlot .MEM s)) ∨
      ((∀ e, s.slots.MEM = some e → e.instr.opcode ≠ .LD ∧ e.instr.opcode ≠ .ST) ∧ t = serveSlot .MEM s) := by
  unfold serve at h
  cases hm : s.slots.MEM with
  | none =>
    simp only [Slots.get, hm, Host.Outcome.next.injEq] at h
    exact .inr (.inr ⟨by simp, h.symm⟩)
  | some e =>
    simp only [Slots.get, hm] at h
    rcases exec_MEM_cases rfl h with ⟨o, a, hi, ha, hl, rfl⟩ | ⟨o, a, r, hi, ha, hl, hr, rfl⟩ | ⟨h1, h2, rfl⟩
    · exact .inl ⟨e, o, a, rfl, hi, ha, hl, rfl⟩
    · exact .inr (.inl ⟨e, o, a, r, rfl, hi, ha, hl, hr, rfl⟩)
    · exact .inr (.inr ⟨fun e' he => by cases he; exact ⟨h1, h2⟩, rfl⟩)

/-- What the EX part of a step can do. -/
theorem serve_EX_cases {s t : State} (h : serve exec .EX s = .next t) :
    (∃ e v, s.slots.EX = some e ∧ latchesInEX e.instr = true ∧ t = latchEX v (serveSlot .EX s)) ∨
      (∃ e, ∃ k : Nat, s.slots.EX = some e ∧
        (e.instr.opcode = .BEQ ∨ e.instr.opcode = .BNE ∨ e.instr.opcode = .JMP) ∧ k ≤ 2147483647 ∧
        t = flush (putPc k (serveSlot .EX s))) ∨
      (∃ e, s.slots.EX = some e ∧ e.instr.opcode = .INT ∧ t = flush (raisePending (serveSlot .EX s))) ∨
      (s.slots.EX.all (fun e => !latchesInEX e.instr && !endsInEX e.instr) = true ∧ t = serveSlot .EX s) := by
  unfold serve at h
  cases hx : s.slots.EX with
  | none =>
    simp only [Slots.get, hx, Host.Outcome.next.injEq] at h
    exact .inr (.inr (.inr ⟨rfl, h.symm⟩))
  | some e =>
    simp only [Slots.get, hx] at h
    rcases exec_EX_cases rfl h with ⟨hl, v, rfl⟩ | ⟨hop, k, hk, rfl⟩ | ⟨hop, rfl⟩ | ⟨hl, he, rfl⟩
    · exact .inl ⟨e, v, rfl, hl, rfl⟩
    · exact .inr (.inl ⟨e, k, rfl, hop, hk, rfl⟩)
    · exact .inr (.inr (.inl ⟨e, rfl, hop, rfl⟩))
    · exact .inr (.inr (.inr ⟨by simp [hl, he], rfl⟩))

/-- The stage actions run in the order WB, MEM, EX (R140). -/
theorem stageActions_cases {s t : State} (h : stageActions exec s = .next t) :
    ∃ s1 s2, serve exec .WB s = .next s1 ∧ serve exec .MEM s1 = .next s2 ∧ serve exec .EX s2 = .next t := by
  simp only [stageActions, andThen_eq_next] at h
  obtain ⟨s1, h1, s2, h2, h3⟩ := h
  exact ⟨s1, s2, h1, h2, h3⟩

/-- A step that answers a next state is an interrupt entry, or runs the stage actions and finishes (R140). -/
theorem step_cases {s t : State} (h : step s = .next t) :
    s.fault = none ∧ s.loaded = true ∧
      ((s.pending = true ∧ t = interruptEntry s) ∨
        (s.pending = false ∧ ∃ s3, stageActions exec s = .next s3 ∧ t = finishStep s3)) := by
  unfold step clockCycle at h
  split at h
  · cases h
  case h_2 hf =>
    split at h
    case isFalse => cases h
    case isTrue hl =>
      split at h
      case isTrue hp => cases h; exact ⟨hf, hl, .inl ⟨hp, rfl⟩⟩
      case isFalse hp =>
        rw [andThen_eq_next] at h
        obtain ⟨s3, h3, h⟩ := h
        cases h
        exact ⟨hf, hl, .inr ⟨by simpa using hp, s3, h3, rfl⟩⟩

/-- A frozen step (R141). -/
theorem step_frozen {s : State} (hf : s.fault = none) (hl : s.loaded = true) (hp : s.pending = true) :
    step s = .next (interruptEntry s) := by
  simp [step, clockCycle, hf, hl, hp]

/-- A step that is not frozen (R140, steps 2 to 6). -/
theorem step_ready {s : State} (h : s.ready) :
    step s = andThen (stageActions exec s) fun s' => .next (finishStep s') := by
  simp [step, clockCycle, h.1, h.2.1, h.2.2]

theorem finishStep_ended {s : State} (h : s.active = none) : finishStep s = s := by simp [finishStep, h]

theorem finishStep_stall {s : State} {k : Slot} (h : s.active = some k) (hz : hazard s = true) :
    finishStep s = stallShift s := by
  simp [finishStep, h, hz]

theorem finishStep_advance {s : State} {k : Slot} (h : s.active = some k) (hz : hazard s = false) :
    finishStep s = advanceShift s := by
  simp [finishStep, h, hz]

/-- What the WB and MEM parts of a step leave as they were. -/
structure KeptBeforeEX (s t : State) : Prop where
  params : t.params = s.params
  pc : t.pc = s.pc
  cycle : t.cycle = s.cycle
  pending : t.pending = s.pending
  slotIF : t.slots.IF = s.slots.IF
  slotID : t.slots.ID = s.slots.ID
  slotEX : t.slots.EX = s.slots.EX
  slotMEM : t.slots.MEM.map Entry.instr = s.slots.MEM.map Entry.instr
  prog : t.prog = s.prog
  irqFifo : t.irqFifo = s.irqFifo
  fault : t.fault = s.fault
  loaded : t.loaded = s.loaded

theorem serve_WB_MEM_kept {s s1 s2 : State} (h1 : serve exec .WB s = .next s1) (h2 : serve exec .MEM s1 = .next s2) :
    KeptBeforeEX s s2 := by
  have k1 : KeptBeforeEX s s1 := by
    rcases serve_WB_cases h1 with ⟨e, r, v, -, -, -, -, rfl⟩ | ⟨-, rfl⟩ <;> constructor <;> rfl
  have k2 : KeptBeforeEX s1 s2 := by
    rcases serve_MEM_cases h2 with ⟨e, o, a, he, -, -, -, rfl⟩ | ⟨e, o, a, r, -, -, -, -, -, rfl⟩ | ⟨-, rfl⟩
    · constructor <;> simp [he, Entry.withResult]
    · constructor <;> rfl
    · constructor <;> rfl
  constructor
  · exact k2.params.trans k1.params
  · exact k2.pc.trans k1.pc
  · exact k2.cycle.trans k1.cycle
  · exact k2.pending.trans k1.pending
  · exact k2.slotIF.trans k1.slotIF
  · exact k2.slotID.trans k1.slotID
  · exact k2.slotEX.trans k1.slotEX
  · exact k2.slotMEM.trans k1.slotMEM
  · exact k2.prog.trans k1.prog
  · exact k2.irqFifo.trans k1.irqFifo
  · exact k2.fault.trans k1.fault
  · exact k2.loaded.trans k1.loaded

/-- What the EX part of a step leaves as it was, unless it ends the step. -/
structure KeptInEX (s t : State) : Prop where
  params : t.params = s.params
  regs : t.regs = s.regs
  pc : t.pc = s.pc
  cycle : t.cycle = s.cycle
  hits : t.hits = s.hits
  misses : t.misses = s.misses
  pending : t.pending = s.pending
  slotIF : t.slots.IF = s.slots.IF
  slotID : t.slots.ID = s.slots.ID
  slotEX : t.slots.EX.map Entry.instr = s.slots.EX.map Entry.instr
  slotMEM : t.slots.MEM = s.slots.MEM
  mem : t.mem = s.mem
  prog : t.prog = s.prog
  cache : t.cache = s.cache
  irqFifo : t.irqFifo = s.irqFifo
  fault : t.fault = s.fault
  loaded : t.loaded = s.loaded
  active : t.active = some .EX

/-- The EX part of a step ends it with a transfer, ends it with INT, or goes on (R140, step 4). -/
theorem serve_EX_ends_or_keeps {s t : State} (h : serve exec .EX s = .next t) :
    (∃ e, ∃ k : Nat, s.slots.EX = some e ∧
        (e.instr.opcode = .BEQ ∨ e.instr.opcode = .BNE ∨ e.instr.opcode = .JMP) ∧ k ≤ 2147483647 ∧
        t = flush (putPc k (serveSlot .EX s))) ∨
      (∃ e, s.slots.EX = some e ∧ e.instr.opcode = .INT ∧ t = flush (raisePending (serveSlot .EX s))) ∨
      (KeptInEX s t ∧ s.slots.EX.all (fun e => !endsInEX e.instr) = true) := by
  rcases serve_EX_cases h with ⟨e, v, he, hlat, rfl⟩ | h | h | ⟨ha, rfl⟩
  · refine .inr (.inr ⟨by constructor <;> simp [he, Entry.withResult], ?_⟩)
    rw [he]
    rcases e with ⟨i, r⟩
    cases i <;> simp [latchesInEX, endsInEX] at hlat ⊢
  · exact .inl h
  · exact .inr (.inl h)
  · refine .inr (.inr ⟨by constructor <;> simp, ?_⟩)
    cases hx : s.slots.EX <;> simp_all

theorem keptInEX_of_active {s t : State} (h : serve exec .EX s = .next t) (ha : t.active ≠ none) : KeptInEX s t := by
  rcases serve_EX_ends_or_keeps h with ⟨e, k, -, -, -, rfl⟩ | ⟨e, -, -, rfl⟩ | h
  · simp at ha
  · simp at ha
  · exact h.1

/-- A step that EX ended: what ended it. -/
theorem serve_EX_ended {s t : State} (h : serve exec .EX s = .next t) (ha : t.active = none) :
    (∃ e, ∃ k : Nat, s.slots.EX = some e ∧
        (e.instr.opcode = .BEQ ∨ e.instr.opcode = .BNE ∨ e.instr.opcode = .JMP) ∧ k ≤ 2147483647 ∧
        t = flush (putPc k (serveSlot .EX s))) ∨
      (∃ e, s.slots.EX = some e ∧ e.instr.opcode = .INT ∧ t = flush (raisePending (serveSlot .EX s))) := by
  rcases serve_EX_ends_or_keeps h with h | h | h
  · exact .inl h
  · exact .inr h
  · rw [h.1.active] at ha; cases ha

/-- The hazard check sees the entries the step began with (R150: no stage action changes an instruction). -/
theorem hazard_kept {s s2 s3 : State} (K : KeptBeforeEX s s2) (K3 : KeptInEX s2 s3) : hazard s3 = hazard s := by
  have hx : s3.slots.EX.map Entry.instr = s.slots.EX.map Entry.instr := by rw [K3.slotEX, K.slotEX]
  unfold hazard
  rw [K3.slotID, K.slotID, K3.params, K.params]
  cases s.slots.ID with
  | none => rfl
  | some d =>
    cases h3 : s3.slots.EX <;> cases h : s.slots.EX <;> simp [h3, h] at hx ⊢
    rw [hx]

/-- The parts of a step that is not frozen, in their order (R140). -/
theorem step_ready_cases {s t : State} (hp : s.pending = false) (h : step s = .next t) :
    s.ready ∧ ∃ s1 s2 s3, serve exec .WB s = .next s1 ∧ serve exec .MEM s1 = .next s2 ∧
      serve exec .EX s2 = .next s3 ∧ stageActions exec s = .next s3 ∧ KeptBeforeEX s s2 ∧ t = finishStep s3 := by
  obtain ⟨hf, hl, ⟨hp', -⟩ | ⟨-, s3, h3, rfl⟩⟩ := step_cases h
  · simp [hp] at hp'
  · obtain ⟨s1, s2, h1, h2, h3'⟩ := stageActions_cases h3
    exact ⟨⟨hf, hl, hp⟩, s1, s2, s3, h1, h2, h3', h3, serve_WB_MEM_kept h1 h2, rfl⟩

/-- What the end of a step leaves as it was: everything but the slots, `pc`, `cycle` and the model's own field. -/
theorem finishStep_kept (s : State) :
    (finishStep s).params = s.params ∧ (finishStep s).regs = s.regs ∧ (finishStep s).hits = s.hits ∧
      (finishStep s).misses = s.misses ∧ (finishStep s).pending = s.pending ∧ (finishStep s).mem = s.mem ∧
      (finishStep s).prog = s.prog ∧ (finishStep s).cache = s.cache ∧ (finishStep s).irqFifo = s.irqFifo ∧
      (finishStep s).fault = s.fault ∧ (finishStep s).loaded = s.loaded := by
  unfold finishStep
  split
  · simp
  · split <;> simp [stallShift, advanceShift]

/-- The shape of a ready step (R140). -/
theorem stepShape_ready {s : State} (h : s.ready) :
    stepShape s =
      match stageActions exec s with
      | .next s' =>
        match s'.active with
        | none => some .flush
        | some _ => if hazard s' then some .stall else some .advance
      | .fault _ => none
      | .refused _ => none := by
  obtain ⟨hf, hl, hp⟩ := h
  simp only [stepShape, hf, hl, hp, Option.isSome_none, Bool.not_true, Bool.or_self, Bool.false_eq_true, if_false] <;> rfl

/-- What each shape of a step says of the state it starts in (R140). -/
theorem stepShape_cases {s : State} {k : Shape} (h : stepShape s = some k) :
    (k = .frozen ∧ s.fault = none ∧ s.loaded = true ∧ s.pending = true) ∨
      (s.ready ∧ ∃ s', stageActions exec s = .next s' ∧
        ((k = .flush ∧ s'.active = none) ∨ (k = .stall ∧ (∃ a, s'.active = some a) ∧ hazard s' = true) ∨
          (k = .advance ∧ (∃ a, s'.active = some a) ∧ hazard s' = false))) := by
  unfold stepShape at h
  split at h
  · cases h
  case isFalse h0 =>
    simp only [Bool.or_eq_true, Bool.not_eq_true', not_or, Bool.not_eq_true, Option.isSome_eq_false_iff,
      Option.isNone_iff_eq_none, Bool.not_eq_false] at h0
    split at h
    case isTrue hp => cases h; exact .inl ⟨rfl, h0.1, h0.2, hp⟩
    case isFalse hp =>
      refine .inr ⟨⟨h0.1, h0.2, by simpa using hp⟩, ?_⟩
      cases hs : stageActions exec s with
      | next s' =>
        refine ⟨s', rfl, ?_⟩
        simp only [hs] at h
        cases ha : s'.active with
        | none => simp only [ha] at h; cases h; exact .inl ⟨rfl, rfl⟩
        | some a =>
          simp only [ha] at h
          cases hz : hazard s' with
          | true => simp only [hz, if_true] at h; cases h; exact .inr (.inl ⟨rfl, ⟨a, rfl⟩, rfl⟩)
          | false =>
            simp only [hz, Bool.false_eq_true, if_false] at h; cases h
            exact .inr (.inr ⟨rfl, ⟨a, rfl⟩, rfl⟩)
      | fault f => simp only [hs] at h; cases h
      | refused r => simp only [hs] at h; cases h

theorem serve_raises {sl : Slot} {s : State} {f : Fault} (h : serve exec sl s = .fault f) :
    f.raisedByStep = true := by
  unfold serve at h
  split at h
  · exact exec_raises h
  · cases h

/-- A step faults only if it may be called and is not frozen (R141, R163), and only with a fault of R191 that a step
can raise. -/
theorem step_fault_cases {s : State} {f : Fault} (h : step s = .fault f) : s.ready ∧ f.raisedByStep = true := by
  unfold step clockCycle at h
  split at h
  · cases h
  case h_2 hf =>
    split at h
    case isFalse => cases h
    case isTrue hl =>
      split at h
      case isTrue => cases h
      case isFalse hp =>
        refine ⟨⟨hf, hl, by simpa using hp⟩, ?_⟩
        simp only [stageActions, andThen_eq_fault, reduceCtorEq, and_false, exists_false, or_false] at h
        rcases h with h | ⟨s1, -, h | ⟨s2, -, h⟩⟩ <;> exact serve_raises h

end Sys2Proof.Machine
end

