-- ==== Sys2Proof/Tests/Slice0.lean ====
section
/-! SUPPORT. Tests. Expected results come from spec/95_test_vectors.md (the vector is named) or from the rule cited.
The witness theorems show, for each statement with hypotheses, concrete states and operands that meet them together. -/

namespace Sys2Proof.Tests

open Sys2Proof.Machine

/-! ## Helpers: small states over the example parameters of 95_test_vectors.md. -/

/-- The state after a load of `p` (R37). -/
def loadedWith (p : List Instr) : State := State.afterLoad Config.exampleParams [] p

/-- An entry with no result. -/
def fresh (i : Instr) : Entry := ⟨i, none⟩

/-- `s` with the given slots. -/
def withSlots (sl : Slots) (s : State) : State := { s with slots := sl }

/-- The stage action of `i` in EX. -/
def runEX (i : Instr) (s : State) : Result :=
  exec i { s with slots := ⟨none, none, some (fresh i), none, none⟩, active := some .EX }

/-- The stage action of `i` in MEM. -/
def runMEM (i : Instr) (s : State) : Result :=
  exec i { s with slots := ⟨none, none, none, some (fresh i), none⟩, active := some .MEM }

/-- The stage action of `i` in WB, its latch holding `v`. -/
def runWB (i : Instr) (v : Option Word) (s : State) : Result :=
  exec i { s with slots := ⟨none, none, none, none, some ⟨i, v⟩⟩, active := some .WB }

/-- The value a part of the state has, where a next state is answered. -/
def after {α : Type} (r : Result) (f : State → α) : Option α :=
  match r with
  | .next s => some (f s)
  | .fault _ => none
  | .refused _ => none

/-- The fault, where one is answered. -/
def faultOf (r : Result) : Option Fault :=
  match r with
  | .next _ => none
  | .fault f => some f
  | .refused _ => none

/-! ## WellFormed: an ill-formed term for each check (R71). -/

theorem test_wf_accepts :
    ([.add ⟨some 0, some 31, some 31, none⟩, .sub ⟨some 31, some 0, none, some 5⟩, .mul ⟨some 1, some 1, some 1, some 1⟩,
      .ld ⟨some 31, none, none, some 5000⟩, .st ⟨none, some 31, none, some (-1)⟩, .beq ⟨none, some 0, some 0, some 1⟩,
      .bne ⟨none, some 1, some 0, some (-5)⟩, .jmp ⟨none, none, none, some (-1)⟩, .int ⟨none, none, none, none⟩] :
      List Instr).all Instr.wellFormed = true := by decide

theorem test_wf_arithmetic_needs_rd :
    ([.add ⟨none, some 1, some 2, none⟩, .sub ⟨none, some 1, some 2, none⟩, .mul ⟨none, some 1, some 2, none⟩] :
      List Instr).all (fun i => !i.wellFormed) = true := by decide

theorem test_wf_arithmetic_needs_rs1 :
    ([.add ⟨some 1, none, some 2, none⟩, .sub ⟨some 1, none, some 2, none⟩, .mul ⟨some 1, none, some 2, none⟩] :
      List Instr).all (fun i => !i.wellFormed) = true := by decide

theorem test_wf_arithmetic_needs_a_second_operand :
    ([.add ⟨some 1, some 2, none, none⟩, .sub ⟨some 1, some 2, none, none⟩, .mul ⟨some 1, some 2, none, none⟩] :
      List Instr).all (fun i => !i.wellFormed) = true := by decide

theorem test_wf_ld_needs_rd_and_imm :
    ([.ld ⟨none, none, none, some 1⟩, .ld ⟨some 1, none, none, none⟩] : List Instr).all (fun i => !i.wellFormed) =
      true := by decide

theorem test_wf_st_needs_rs1_and_imm :
    ([.st ⟨none, none, none, some 1⟩, .st ⟨none, some 1, none, none⟩] : List Instr).all (fun i => !i.wellFormed) =
      true := by decide

theorem test_wf_branch_needs_rs1_rs2_and_imm :
    ([.beq ⟨none, none, some 0, some 1⟩, .beq ⟨none, some 0, none, some 1⟩, .beq ⟨none, some 0, some 0, none⟩,
      .bne ⟨none, none, some 0, some 1⟩, .bne ⟨none, some 0, none, some 1⟩, .bne ⟨none, some 0, some 0, none⟩] :
      List Instr).all (fun i => !i.wellFormed) = true := by decide

theorem test_wf_jmp_needs_imm : Instr.wellFormed (.jmp ⟨none, none, none, none⟩) = false := by decide

theorem test_wf_indices_name_registers :
    ([.ld ⟨some 32, none, none, some 1⟩, .ld ⟨some (-1), none, none, some 1⟩, .st ⟨none, some 32, none, some 1⟩,
      .beq ⟨none, some 0, some 32, some 1⟩, .int ⟨some 32, none, none, none⟩] : List Instr).all
      (fun i => !i.wellFormed) = true := by decide

theorem test_encodable_bounds :
    ([.ld ⟨some 256, none, none, some 1⟩, .st ⟨none, some (-1), none, some 1⟩, .beq ⟨none, some 0, some 256, some 1⟩,
      .jmp ⟨none, none, none, some 2147483648⟩, .jmp ⟨none, none, none, some (-2147483649)⟩] : List Instr).all
      (fun i => !i.encodable) = true := by decide

/-! ## Decode: the words of V-E1, written out by the spec, and the rejected words of V-E2. -/

theorem test_decode_add_registers : decode 0x1E03010200000000 = .ok (.add ⟨some 3, some 1, some 2, none⟩) := by decide

theorem test_decode_add_both : decode 0x1F02000100000064 = .ok (.add ⟨some 2, some 0, some 1, some 100⟩) := by decide

theorem test_decode_add_no_second_operand : decode 0x1C01020000000000 = .ok (.add ⟨some 1, some 2, none, none⟩) := by
  decide

theorem test_decode_sub : decode 0x2D070100FFFFFFFF = .ok (.sub ⟨some 7, some 1, none, some (-1)⟩) := by decide

theorem test_decode_mul : decode 0x3D040400FFFFFFFD = .ok (.mul ⟨some 4, some 4, none, some (-3)⟩) := by decide

theorem test_decode_ld : decode 0x491F0000000000FF = .ok (.ld ⟨some 31, none, none, some 255⟩) := by decide

theorem test_decode_ld_index_out_of_range : decode 0x4928000000000003 = .ok (.ld ⟨some 40, none, none, some 3⟩) := by
  decide

theorem test_decode_st : decode 0x550002000000012C = .ok (.st ⟨none, some 2, none, some 300⟩) := by decide

theorem test_decode_beq : decode 0x6700000000000001 = .ok (.beq ⟨none, some 0, some 0, some 1⟩) := by decide

theorem test_decode_bne : decode 0x77000100FFFFFFFB = .ok (.bne ⟨none, some 1, some 0, some (-5)⟩) := by decide

theorem test_decode_jmp : decode 0x81000000FFFFFFFF = .ok (.jmp ⟨none, none, none, some (-1)⟩) := by decide

theorem test_decode_int : decode 0x9000000000000000 = .ok (.int ⟨none, none, none, none⟩) := by decide

theorem test_decode_no_field : decode 0x1000000000000000 = .ok (.add ⟨none, none, none, none⟩) := by decide

/-- R74 bit by bit, `SUB{rd=5, rs1=3, rs2=6}`: `0010`, `1110`, `00000101`, `00000011`, `00000110`, 32 zeros. -/
theorem test_decode_sub_bit_by_bit :
    decode 0b0010111000000101000000110000011000000000000000000000000000000000 =
      .ok (.sub ⟨some 5, some 3, some 6, none⟩) := by decide

/-- R74 bit by bit with every presence bit set, `BNE{rd=255, rs1=128, rs2=1, imm=-2^31}`. -/
theorem test_decode_bne_bit_by_bit :
    decode 0b0111111111111111100000000000000110000000000000000000000000000000 =
      .ok (.bne ⟨some 255, some 128, some 1, some (-2147483648)⟩) := by decide

theorem test_decode_rejects :
    decode 0x0000000000000000 = .error (.illegalOpcode 0) ∧ decode 0xA000000000000000 = .error (.illegalOpcode 10) ∧
      decode 0xF000000000000000 = .error (.illegalOpcode 15) ∧ decode 0x9000000000000001 = .error (.nonzeroAbsent .imm) ∧
      decode 0x4001000000000005 = .error (.nonzeroAbsent .rd) ∧ decode 0x1D02010100000005 = .error (.nonzeroAbsent .rs2) := by
  decide

theorem test_decodeTableWord :
    decodeTableWord 64 0x8100000000000004 = some (.jmp ⟨none, none, none, some 4⟩) ∧ decodeTableWord 64 0 = none := by
  decide

/-- R93, R91: the assembly texts of the worked encodings, and a record they cannot spell. -/
theorem test_assembly :
    assemblyText (.add ⟨some 3, some 1, some 2, none⟩) = some "ADD r3, r1, r2" ∧
      assemblyText (.mul ⟨some 4, some 4, none, some (-3)⟩) = some "MUL r4, r4, #-3" ∧
      assemblyText (.ld ⟨some 1, none, none, some 5⟩) = some "LD r1, [5]" ∧
      assemblyText (.st ⟨none, some 2, none, some 300⟩) = some "ST r2, [300]" ∧
      assemblyText (.bne ⟨none, some 1, some 0, some (-5)⟩) = some "BNE r1, r0, -5" ∧
      assemblyText (.jmp ⟨none, none, none, some 4⟩) = some "JMP 4" ∧
      assemblyText (.int ⟨none, none, none, none⟩) = some "INT" ∧
      assemblyText (.ld ⟨some 40, none, none, some 3⟩) = none := by decide

/-- R191: the codes 1 to 6. -/
theorem test_fault_codes :
    ([.configurationError, .registerBounds, .pcBounds, .memoryBounds, .missingOperand, .illegalInstruction].map
      FaultCode.number) = [1, 2, 3, 4, 5, 6] := by decide

/-! ## One action of each instruction. -/

/-- V-A1: `2147483647 + 1 = -2147483648`. -/
theorem test_add_wraps :
    after (runEX (.add ⟨some 2, some 1, none, some 1⟩) (putRegister 1 0x7FFFFFFF (loadedWith [])))
      (fun s => s.slots.EX.bind Entry.result) = some (some 0x80000000) := by decide

/-- V-A3: with both fields present the register is the second operand. -/
theorem test_add_prefers_rs2 :
    after (runEX (.add ⟨some 2, some 0, some 1, some 100⟩) (putRegister 1 3 (loadedWith [])))
      (fun s => s.slots.EX.bind Entry.result) = some (some 3) := by decide

/-- V-A1: `3 - 10 = -7`. -/
theorem test_sub_order :
    after (runEX (.sub ⟨some 4, some 2, some 1, none⟩) (putRegister 1 10 (putRegister 2 3 (loadedWith []))))
      (fun s => s.slots.EX.bind Entry.result) = some (some (-7)) := by decide

/-- V-F1: no `rd` is a fault in WB only. -/
theorem test_sub_needs_rd_in_WB :
    faultOf (runWB (.sub ⟨none, some 1, some 2, none⟩) (some 7) (loadedWith [])) = some (.missingOperand .SUB .rd) := by
  decide

/-- V-A1: `46341 * 46341` in 32 bits. -/
theorem test_mul_low_word :
    after (runEX (.mul ⟨some 3, some 1, some 1, none⟩) (putRegister 1 46341 (loadedWith [])))
      (fun s => s.slots.EX.bind Entry.result) = some (some (-2147479015)) := by decide

/-- V-A1: `-7 * 3 = -21`, committed to `r5`. -/
theorem test_mul_commits :
    after (runWB (.mul ⟨some 5, some 1, none, some 3⟩) (some (-21)) (loadedWith [])) (fun s => s.regs.get 5) =
      some (-21) := by decide

/-- V-L3: the stale line of address 300 is a hit, and the loaded word is memory's. -/
theorem test_ld_hits_a_stale_line :
    after (runMEM (.ld ⟨some 3, none, none, some 300⟩)
        { loadedWith [] with mem := [(300, 77)], cache := [[], [⟨true, 37, 0⟩]], misses := 1 })
      (fun s => (s.slots.MEM.bind Entry.result, s.hits, s.misses, s.cache)) =
        some (some 77, 1, 1, [[], [⟨true, 37, 0⟩]]) := by decide

/-- V-L4: address 1024 does not exist, and a negative address does not wrap. -/
theorem test_ld_bounds :
    faultOf (runMEM (.ld ⟨some 1, none, none, some 1024⟩) (loadedWith [])) = some (.memoryBounds 1024) ∧
      faultOf (runMEM (.ld ⟨some 1, none, none, some (-1)⟩) (loadedWith [])) = some (.memoryBounds (-1)) := by decide

/-- V-L3: the store goes to memory and leaves the line alone. -/
theorem test_st_leaves_the_line :
    after (runMEM (.st ⟨none, some 2, none, some 300⟩)
        { putRegister 2 77 (loadedWith []) with cache := [[], [⟨true, 37, 0⟩]] })
      (fun s => (s.mem.read 300, s.mem.read 301, s.cache, s.misses)) = some (77, 0, [[], [⟨true, 37, 0⟩]], 0) := by
  decide

/-- V-L5: a source register out of range faults; an address out of range would fault first (R197). -/
theorem test_st_faults_in_order :
    faultOf (runMEM (.st ⟨none, some 32, none, some 5⟩) (loadedWith [])) = some (.registerBounds 32) ∧
      faultOf (runMEM (.st ⟨none, some 32, none, some 1024⟩) (loadedWith [])) = some (.memoryBounds 1024) := by decide

/-- P5, step 6: `pc` goes from 5 to 6. -/
theorem test_beq_taken :
    after (runEX (.beq ⟨none, some 0, some 0, some 1⟩) { loadedWith [] with pc := 5, cycle := 5 })
      (fun s => (s.pc, s.cycle, s.slots, s.pending)) = some (6, 6, Slots.empty, false) := by decide

/-- V-B4, V-B5: a taken branch needs its immediate, and a target below 0. -/
theorem test_beq_faults :
    faultOf (runEX (.beq ⟨none, some 0, some 0, none⟩) (loadedWith [])) = some (.missingOperand .BEQ .imm) ∧
      faultOf (runEX (.beq ⟨none, some 0, some 0, some (-2)⟩) { loadedWith [] with pc := 1 }) =
        some (.pcBounds (-1)) := by decide

/-- P3, step 9: `7 - 5 = 2`. -/
theorem test_bne_taken :
    after (runEX (.bne ⟨none, some 1, some 0, some (-5)⟩) { putRegister 1 2 (loadedWith []) with pc := 7 })
      (fun s => (s.pc, s.slots)) = some (2, Slots.empty) := by decide

/-- V-B4: a branch that is not taken never reads its immediate and costs nothing. -/
theorem test_bne_not_taken :
    after (runEX (.bne ⟨none, some 0, some 0, none⟩) { loadedWith [] with pc := 1, cycle := 3 })
      (fun s => (s.pc, s.cycle, s.active)) = some (1, 3, some .EX) := by decide

/-- V-B6: a target beyond the program is legal, and the run is finished. -/
theorem test_jmp_beyond_the_program :
    after (runEX (.jmp ⟨none, none, none, some 1000⟩) (loadedWith [.jmp ⟨none, none, none, some 1000⟩]))
      (fun s => (s.pc, isFinished s)) = some (1000, true) := by decide

/-- V-B5 and R126: the two ends of the domain of `pc`. -/
theorem test_jmp_bounds :
    faultOf (runEX (.jmp ⟨none, none, none, some (-1)⟩) (loadedWith [])) = some (.pcBounds (-1)) ∧
      after (runEX (.jmp ⟨none, none, none, some 2147483647⟩) (loadedWith [])) State.pc = some 2147483647 ∧
      faultOf (runEX (.jmp ⟨none, none, none, some 2147483648⟩) (loadedWith [])) = some (.pcBounds 2147483648) := by
  decide

/-- P4, step 6. -/
theorem test_int_raises_pending :
    after (runEX (.int ⟨none, none, none, none⟩) { loadedWith [] with pc := 5, cycle := 5 })
      (fun s => (s.pending, s.pc, s.cycle, s.slots)) = some (true, 5, 6, Slots.empty) := by decide

/-- P4, step 7: the frozen cycle. -/
theorem test_interrupt_entry :
    after (step { loadedWith [] with pc := 5, cycle := 6, pending := true })
      (fun s => (s.slots.IF.map Entry.instr, s.pending, s.pc, s.cycle)) =
        some (some (.ld ⟨some 31, none, none, some 255⟩), false, 5, 7) := by decide

/-! ## Steps and the cache. -/

/-- The program P1b. -/
def p1b : List Instr :=
  [.ld ⟨some 1, none, none, some 5⟩, .ld ⟨some 2, none, none, some 7⟩, .add ⟨some 3, some 2, some 1, none⟩]

/-- P1b before step 5. -/
def beforeStall : State :=
  { loadedWith p1b with
    pc := 3
    cycle := 4
    slots := ⟨none, some (fresh (.add ⟨some 3, some 2, some 1, none⟩)),
      some (fresh (.ld ⟨some 2, none, none, some 7⟩)), some (fresh (.ld ⟨some 1, none, none, some 5⟩)), none⟩ }

/-- P1b, step 5: EX goes to MEM and MEM to WB with its latch, the rest stays. -/
theorem test_stall :
    after (step beforeStall) (fun s => (s.slots.ID, s.slots.EX, s.slots.MEM, s.slots.WB)) =
        some (some (fresh (.add ⟨some 3, some 2, some 1, none⟩)), none,
          some (fresh (.ld ⟨some 2, none, none, some 7⟩)), some ⟨.ld ⟨some 1, none, none, some 5⟩, some 5⟩) ∧
      after (step beforeStall) (fun s => (s.pc, s.cycle, s.misses)) = some (3, 5, 1) := by decide

/-- V-C1: the hits of the access sequence on the example geometry. -/
theorem test_cache_sequence :
    (([0, 0, 8, 0, 16, 0, 8, 4, 5, 12].foldl
      (fun (x : List Bool × Cache) a =>
        (x.1 ++ [(cacheAccess Config.exampleParams x.2 [] a).1], (cacheAccess Config.exampleParams x.2 [] a).2))
      ([], emptyCache Config.exampleParams))) =
      ([false, true, false, true, false, false, false, false, true, false],
        [[⟨true, 0, 0⟩, ⟨true, 1, 8⟩], [⟨true, 0, 4⟩, ⟨true, 1, 12⟩]]) := by decide

/-- V-C3: the legal geometries and the illegal ones. -/
theorem test_geometries :
    ([(16, 4, 2), (64, 4, 1), (8, 1, 2), (32, 2, 4), (8, 4, 2)] : List (Int × Int × Int)).all
        (fun g => geometryLegal g.1 g.2.1 g.2.2) = true ∧
      ([(10, 4, 2), (16, 3, 2), (4, 4, 2), (0, 4, 2), (16, 0, 2), (16, 4, 0)] : List (Int × Int × Int)).all
        (fun g => !geometryLegal g.1 g.2.1 g.2.2) = true := by decide

/-- R37, V-R1: the seed at its boundary. -/
theorem test_seed :
    ([0, 1, 259, 260, 1023].map (loadedWith []).mem.read) = [0, 1, 259, 0, 0] := by decide

/-! ## Witnesses: states and operands that meet the hypotheses of the statements, each clause at a boundary. -/

/-- The step answers a next state. -/
def goesOn (r : Result) : Bool := (after r fun _ => true).getD false

/-- The next state, where one is answered. -/
def stateOf (r : Result) : State :=
  match r with
  | .next s => s
  | .fault _ => loadedWith []
  | .refused _ => loadedWith []

/-- P1a before step 6: WB, MEM and EX are occupied. -/
def beforeStale : State :=
  { loadedWith [.ld ⟨some 1, none, none, some 5⟩, .ld ⟨some 2, none, none, some 7⟩,
      .add ⟨some 3, some 1, some 2, none⟩] with
    pc := 3
    cycle := 5
    misses := 1
    cache := [[], [⟨true, 0, 5⟩]]
    slots := ⟨none, none, some (fresh (.add ⟨some 3, some 1, some 2, none⟩)),
      some (fresh (.ld ⟨some 2, none, none, some 7⟩)), some ⟨.ld ⟨some 1, none, none, some 5⟩, some 5⟩⟩ }

/-- An entry in EX and one in MEM, nothing else, over a program of seven instructions. -/
def pairState (x m : Instr) (latch : Option Word) : State :=
  { loadedWith (List.replicate 7 x) with pc := 5, slots := ⟨none, none, some (fresh x), some ⟨m, latch⟩, none⟩ }

def int0 : Instr := .int ⟨none, none, none, none⟩

def jmpTo (t : Int) : Instr := .jmp ⟨none, none, none, some t⟩

theorem beforeStale_inv : beforeStale.Inv :=
  ⟨by decide, by decide, by decide, by decide, by decide, by decide, by decide, by decide⟩

theorem witness_EncodeAndDecodeAgree :
    encode (.ld ⟨some 255, none, none, some (-2147483648)⟩) = some 0x49FF000080000000 ∧
      decode 0x49FF000080000000 = .ok (.ld ⟨some 255, none, none, some (-2147483648)⟩) ∧
      encode (.st ⟨none, some 0, none, some 2147483647⟩) = some 0x550000007FFFFFFF ∧
      encode (.ld ⟨some 256, none, none, none⟩) = none ∧ encode (jmpTo 2147483648) = none := by decide

theorem witness_ImageLoadIsAllOrNothing :
    ([0x8100000000000004, 0x9000000000000000] : List Code).map decode = [jmpTo 4, int0].map Except.ok ∧
      ([0x9000000000000000, 0, 0x9000000000000000] : List Code) = [0x9000000000000000] ++ 0 :: [0x9000000000000000] ∧
      ([0x9000000000000000] : List Code).map decode = [int0].map Except.ok ∧ decode 0 = .error (.illegalOpcode 0) := by
  decide

/-- A loaded engine whose instruction memory holds `n` instructions. -/
def shortMemory (n : Nat) : State := State.afterLoad { Config.exampleParams with imemSize := some n } [] []

theorem witness_LoadGivesTheResetState :
    [int0].length ≤ 2147483647 ∧
      (∀ n, (loadedWith []).params.imemSize = some n → [int0].length ≤ n) ∧
      (∀ n, (shortMemory 1).params.imemSize = some n → [int0].length ≤ n) ∧
      ∃ s, construct 8 4 2 0 1023 none none false = .ok s :=
  ⟨by decide, fun n h => (by cases h), fun n h => (by cases h; decide), _, rfl⟩

theorem witness_StepKeepsTheInvariant : beforeStale.Inv ∧ ∃ t, step beforeStale = .next t :=
  ⟨beforeStale_inv, _, rfl⟩

theorem witness_HostOperationsKeepTheInvariant :
    beforeStale.Inv ∧ (perform .step beforeStale).1.fault = none ∧
      (perform (.loadProgram [int0]) beforeStale).1.fault = none ∧ (perform .setPending beforeStale).1.fault = none :=
  ⟨beforeStale_inv, rfl, rfl, rfl⟩

theorem witness_StepIsRefusedExactlyWhenFaultedOrUnloaded :
    step { beforeStale with fault := some .pcBounds } = .refused (.faulted .pcBounds) ∧
      step { beforeStale with loaded := false } = .refused .noProgram := ⟨rfl, rfl⟩

theorem witness_EveryStepAddsOneCycle :
    goesOn (step beforeStale) = true ∧
      (Operation.setPending ≠ .step ∧ (∀ p, Operation.setPending ≠ .loadProgram p) ∧
        ∀ image, Operation.setPending ≠ .loadImage image) ∧
      ∃ t u, loadProgram [int0] beforeStale = .ok t ∧ run 2 t = .next u :=
  ⟨by decide, ⟨by decide, fun _ => by simp, fun _ => by simp⟩, _, _, rfl, rfl⟩

theorem witness_InterruptEntryTouchesOnlyIF :
    (beforeStale.fault = none ∧ beforeStale.loaded = true ∧ { beforeStale with pending := true }.pending = true) ∧
      goesOn (step { beforeStale with pending := true }) = true ∧
      ((pairState int0 int0 none).pending = false ∧
        after (step (pairState int0 int0 none)) State.pending = some true) := by decide

theorem witness_StepRunsTheStageActions :
    ∃ s1 s2 s3, beforeStale.ready ∧
      (∀ e, beforeStale.slots.WB = some e → exec e.instr { beforeStale with active := some .WB } = .next s1) ∧
      (beforeStale.slots.WB = none → s1 = { beforeStale with active := some .WB }) ∧
      (∀ e, s1.slots.MEM = some e → exec e.instr { s1 with active := some .MEM } = .next s2) ∧
      (s1.slots.MEM = none → s2 = { s1 with active := some .MEM }) ∧
      (∀ e, s2.slots.EX = some e → exec e.instr { s2 with active := some .EX } = .next s3) ∧
      (s2.slots.EX = none → s3 = { s2 with active := some .EX }) := by
  refine ⟨stateOf (serve exec .WB beforeStale), stateOf (serve exec .MEM (stateOf (serve exec .WB beforeStale))),
    stateOf (stageActions exec beforeStale), ⟨rfl, rfl, rfl⟩, ?_, ?_, ?_, ?_, ?_, ?_⟩
  · intro e h; cases h; rfl
  · intro h; cases h
  · intro e h; cases h; rfl
  · intro h; cases h
  · intro e h; cases h; rfl
  · intro h; cases h

theorem witness_PlacedWordEntersIF : decodeTableWord 64 0x9000000000000000 = some int0 := by decide

theorem witness_PlacedWordRunsAtTheNextStep :
    ([(0x9000000000000000, .INT), (0x4901000000000005, .LD)] : List (Nat × Opcode)).all (fun x =>
      (decodeTableWord 64 x.1).map Instr.opcode = some x.2) = true := by decide

/-- R122 and R130, from reset: the placed word runs in the very next step. -/
theorem test_placed_transfers_run :
    after (step (State.reset.withFetchWord 64 0x9000000000000000)) (fun s => (s.pending, s.cycle)) = some (true, 1) ∧
      after (step (State.reset.withFetchWord 64 0x8100000000000004)) State.pc = some 4 := by decide

/-- R112 and R110, from reset: `ST r2, [300]` and `LD r1, [5]`, whose latch is then in WB. -/
theorem test_placed_memory_accesses_run :
    after (step ((putRegister 2 7 State.reset).withFetchWord 64 0x550002000000012C)) (fun s => s.mem.read 300) =
        some 7 ∧
      after (step (State.reset.withFetchWord 64 0x4901000000000005)) (fun s => s.slots.WB.bind Entry.result) =
        some (some 5) := by decide

theorem witness_LoadRefusesALongerProgram :
    (∃ n, (shortMemory 0).params.imemSize = some n ∧ n < [int0].length) ∧
      ([0x9000000000000000] : List Code).map decode = [int0].map Except.ok ∧
      (perform (.loadProgram [int0]) (shortMemory 0)).2 = .refused (.programTooLong 1) :=
  ⟨⟨0, rfl, by decide⟩, by decide, by decide⟩

theorem witness_AdvanceFetchesAndShifts :
    (stepShape beforeStale = some .advance ∧ beforeStale.pc = beforeStale.prog.length) ∧
      (stepShape (loadedWith [int0]) = some .advance ∧ goesOn (step (loadedWith [int0])) = true ∧
        ([0x9000000000000000] : List Code).map decode = (loadedWith [int0]).prog.map Except.ok ∧
        ([0x9000000000000000] : List Code)[(loadedWith [int0]).pc]? = some 0x9000000000000000) ∧
      (goesOn (step beforeStall) = true ∧ stepShape beforeStall = some .stall) ∧
      (goesOn (step { beforeStall with pending := true }) = true ∧
        stepShape { beforeStall with pending := true } = some .frozen) ∧
      (goesOn (step (pairState int0 int0 none)) = true ∧ stepShape (pairState int0 int0 none) = some .flush) := by
  decide

/-- V-H3: an ST in EX and an LD in ID, with two absent fields to compare. -/
def absentPair (absentMatch : Bool) : State :=
  { loadedWith [] with
    params := { Config.exampleParams with hazardAbsentMatch := absentMatch }
    slots := ⟨none, some (fresh (.ld ⟨some 2, none, none, some 5⟩)),
      some (fresh (.st ⟨none, some 1, none, some 300⟩)), none, none⟩ }

theorem witness_StallMovesOnlyEXAndMEM :
    (beforeStall.ready ∧ after (stageActions exec beforeStall) State.active = some (some .EX)) ∧
      stepShape beforeStall = some .stall ∧ stepShape (absentPair true) = some .stall ∧
      stepShape (absentPair false) = some .advance :=
  ⟨⟨⟨rfl, rfl, rfl⟩, by decide⟩, by decide, by decide, by decide⟩

theorem witness_StallIsFollowedByAnAdvance :
    stepShape beforeStall = some .stall ∧ ∃ t u, step beforeStall = .next t ∧ step t = .next u :=
  ⟨by decide, _, _, rfl, rfl⟩

/-- A committing entry in WB and an arithmetic one in EX. -/
def commitPair (p x : Instr) (v : Word) : State :=
  withSlots ⟨none, none, some (fresh x), none, some ⟨p, some v⟩⟩ (loadedWith [])

theorem witness_CommitIsSeenInTheSameStep :
    ∃ s : State, ∃ p x : Entry, ∃ d c : Fin 32, ∃ b v w : Word, s.ready ∧ s.slots.WB = some p ∧ commitsResult p.instr = true ∧
      p.instr.operands.rd = some (d.val : Int) ∧ p.result = some v ∧ s.slots.MEM = none ∧ s.slots.EX = some x ∧
      x.instr.operands.rs1 = some (c.val : Int) ∧
      hasSecondOperand x.instr.operands { s with regs := s.regs.set d.val v d.isLt } b ∧
      arithmeticResult x.instr (if c = d then v else s.regs.get c) b = some w :=
  ⟨commitPair (.ld ⟨some 31, none, none, some 5⟩) (.add ⟨some 0, some 31, some 31, none⟩) 5,
    ⟨.ld ⟨some 31, none, none, some 5⟩, some 5⟩, fresh (.add ⟨some 0, some 31, some 31, none⟩), 31, 31, 5, 5, 10,
    ⟨rfl, rfl, rfl⟩, rfl, rfl, rfl, rfl, rfl, rfl, rfl, .inl ⟨31, rfl, by decide⟩, by decide⟩

theorem witness_SecondOperandCanBeStale :
    ([.add ⟨some 3, some 0, some 31, none⟩, .beq ⟨none, some 0, some 31, some 1⟩, .bne ⟨none, some 0, some 31, some 1⟩] :
        List Instr).all (fun x =>
      let s := pairState x (.ld ⟨some 31, none, none, some 7⟩) none
      s.slots.WB = none && s.fault = none && s.loaded && !s.pending && goesOn (step s)) = true ∧
      commitsResult (.ld ⟨some 31, none, none, some 7⟩) = true ∧
      arithmeticResult (.add ⟨some 3, some 0, some 31, none⟩) 0 0 = some 0 ∧
      branchTaken (.beq ⟨none, some 0, some 31, some 1⟩) 0 0 = some true ∧
      branchTaken (.bne ⟨none, some 0, some 31, some 1⟩) 0 0 = some false := by decide

theorem witness_FlushEmptiesEverySlot :
    ([int0, jmpTo 0, .beq ⟨none, some 0, some 0, some 1⟩] : List Instr).all (fun i =>
        stepShape (pairState i int0 none) = some .flush && goesOn (step (pairState i int0 none))) = true := by decide

theorem witness_PredecessorOfATransferLosesItsWrite :
    ([.add ⟨some 1, some 0, none, some 1⟩, .ld ⟨some 1, none, none, some 1023⟩, .st ⟨none, some 31, none, some 1023⟩] :
        List Instr).all (fun p =>
      ([none, some ⟨.ld ⟨some 31, none, none, some 5⟩, some 5⟩, some ⟨.st ⟨none, some 0, none, some 5⟩, none⟩] :
          List (Option Entry)).all (fun w =>
        let s := withSlots ⟨none, none, some (fresh (jmpTo 0)), some ⟨p, some 1⟩, w⟩ (loadedWith [])
        s.mem.wf && stepShape s = some .flush && goesOn (step s))) = true := by decide

theorem witness_FinishedEngineMayBeStepped :
    (∃ t, loadProgram [] beforeStale = .ok t) ∧ isFinished (loadedWith []) = true ∧ (loadedWith []).ready ∧
      isFinished { loadedWith [] with pending := true } = true :=
  ⟨⟨_, rfl⟩, by decide, ⟨rfl, rfl, rfl⟩, by decide⟩

/-- An instruction in EX that was fetched from index 2 of a program of six, as in P4 and P5 before step 6. -/
def trackedState (x : Instr) : State :=
  { loadedWith [jmpTo 0, jmpTo 1, x, jmpTo 3, jmpTo 4, jmpTo 5] with
    pc := 5
    slots := ⟨some (fresh (jmpTo 4)), some (fresh (jmpTo 3)), some (fresh x), none, none⟩ }

theorem trackedState_tracked (x : Instr) : (trackedState x).fetchTracked := by
  refine ⟨fun e h => ?_, fun e h => ?_, fun e h => ?_⟩ <;> cases h
  · exact .inr ⟨4, rfl, rfl⟩
  · exact .inr ⟨3, rfl, rfl⟩
  · exact .inr ⟨2, rfl, rfl⟩

theorem witness_PcSeenInEXIsThreeAhead :
    (∃ t, loadProgram [int0] beforeStale = .ok t) ∧
      (∀ x, (trackedState x).fetchTracked) ∧
      ([int0, .beq ⟨none, some 0, some 0, some (-5)⟩] : List Instr).all (fun x =>
        stepShape (trackedState x) = some .flush && goesOn (step (trackedState x))) = true :=
  ⟨⟨_, rfl⟩, trackedState_tracked, by decide⟩

theorem witness_RegistersChangeOnlyInWB :
    after (step beforeStale) (fun t => t.regs.get 1) = some 5 ∧ beforeStale.regs.get 1 = 0 ∧
      beforeStale.pending = false ∧
      beforeStale.slots.WB = some ⟨.ld ⟨some 1, none, none, some 5⟩, some 5⟩ := by decide

/-- A store of `r31 = 7` to address 1023, in MEM. -/
def storing : State :=
  withSlots ⟨none, none, none, some (fresh (.st ⟨none, some 31, none, some 1023⟩)), none⟩
    (putRegister 31 7 (loadedWith []))

theorem witness_MemoryChangesOnlyByAStoreInMEM :
    storing.mem.wf = true ∧ after (step storing) (fun t => t.mem.read 1023) = some 7 ∧ storing.mem.read 1023 = 0 := by
  decide

theorem witness_PendingIsRaisedOnlyByIntOrTheHost :
    after (step (pairState int0 int0 none)) State.pending = some true ∧
      (perform (.trigger ⟨0⟩) { beforeStale with pending := true }).1.pending = true := by decide

theorem witness_StepKeepsProgramFifoAndParameters : ∃ t, step beforeStale = .next t := ⟨_, rfl⟩

theorem witness_CacheNeverReachesTheRest :
    beforeStale.withoutCache = { beforeStale with cache := [[], []], hits := 9 }.withoutCache ∧
      beforeStale ≠ { beforeStale with cache := [[], []], hits := 9 } := by decide

theorem witness_CountersCountTheLoads :
    (goesOn (step beforeStale) = true ∧ beforeStale.pending = false ∧
        beforeStale.slots.MEM.map Entry.instr = some (.ld ⟨some 2, none, none, some 7⟩)) ∧
      goesOn (step storing) = true ∧
        storing.slots.MEM.map Entry.instr = some (.st ⟨none, some 31, none, some 1023⟩) := by decide

theorem witness_ArithmeticLatchesItsResult :
    ∃ s : State, ∃ b v : Word, s.active = some .EX ∧
      (Instr.mul ⟨some 1, some 31, none, some 2147483648⟩).operands.rs1 = some ((31 : Fin 32).val : Int) ∧
      hasSecondOperand ⟨some 1, some 31, none, some 2147483648⟩ s b ∧
      hasSecondOperand ⟨some 1, some 31, some 0, some 9⟩ s (s.regs.get 0) ∧
      arithmeticResult (.mul ⟨some 1, some 31, none, some 2147483648⟩) (s.regs.get 31) b = some v :=
  ⟨{ loadedWith [] with active := some .EX }, 0x80000000, 0, rfl, rfl, .inr ⟨rfl, 2147483648, rfl, by decide⟩,
    .inl ⟨0, rfl, rfl⟩, by decide⟩

theorem witness_CommitWritesTheDestination :
    commitsResult (.ld ⟨some 0, none, none, none⟩) = true ∧ commitsResult (.mul ⟨some 31, none, none, none⟩) = true ∧
      after (runWB (.mul ⟨some 31, none, none, none⟩) (some 7) (loadedWith [])) (fun s => s.regs.get 31) = some 7 := by
  decide

theorem witness_ArithmeticAndCommitFaults :
    outOfRegisters 32 ∧ outOfRegisters (-1) ∧ latchesInEX (.sub ⟨none, none, none, none⟩) = true ∧
      faultOf (runEX (.sub ⟨none, some 32, none, none⟩) (loadedWith [])) = some (.registerBounds 32) ∧
      faultOf (runEX (.sub ⟨none, some 0, some (-1), some 1⟩) (loadedWith [])) = some (.registerBounds (-1)) ∧
      faultOf (runEX (.sub ⟨none, some 31, none, none⟩) (loadedWith [])) = some (.missingOperand .SUB .imm) ∧
      faultOf (runWB (.ld ⟨some 32, none, none, some 3⟩) (some 3) (loadedWith [])) = some (.registerBounds 32) :=
  ⟨.inr (by decide), .inl (by decide), rfl, by decide, by decide, by decide, by decide⟩

theorem witness_LoadReadsMemory :
    (Operands.mk (some 1) none none (some 0)).imm = some ((0 : Fin 1024).val : Int) ∧
      (Operands.mk (some 1) none none (some 1023)).imm = some ((1023 : Fin 1024).val : Int) ∧
      goesOn (runMEM (.ld ⟨some 1, none, none, some 1023⟩) (loadedWith [])) = true := by decide

theorem witness_StoreWritesMemory :
    (loadedWith []).mem.wf = true ∧ ((1023 : Fin 1024).val : Int) = 1023 ∧ ((31 : Fin 32).val : Int) = 31 ∧
      goesOn (runMEM (.st ⟨none, some 31, none, some 1023⟩) (loadedWith [])) = true ∧
      goesOn (runMEM (.st ⟨none, some 0, none, some 0⟩) (loadedWith [])) = true := by decide

theorem witness_LoadAndStoreFaults :
    faultOf (runMEM (.ld ⟨some 1, none, none, none⟩) (loadedWith [])) = some (.missingOperand .LD .imm) ∧
      faultOf (runMEM (.st ⟨none, none, none, some 1024⟩) (loadedWith [])) = some (.memoryBounds 1024) ∧
      faultOf (runMEM (.st ⟨none, none, none, some (-1)⟩) (loadedWith [])) = some (.memoryBounds (-1)) ∧
      faultOf (runMEM (.st ⟨none, none, none, some 1023⟩) (loadedWith [])) = some (.missingOperand .ST .rs1) ∧
      faultOf (runMEM (.st ⟨none, some (-1), none, some 0⟩) (loadedWith [])) = some (.registerBounds (-1)) := by decide

theorem witness_BranchesTransferOrFallThrough :
    branchTaken (.beq ⟨none, some 31, some 0, some (-5)⟩) 0 0 = some true ∧
      branchTaken (.bne ⟨none, some 31, some 0, some (-5)⟩) 0 0 = some false ∧
      after (runEX (.beq ⟨none, some 31, some 0, some (-5)⟩) { loadedWith [] with pc := 5 }) State.pc = some 0 ∧
      after (runEX (.beq ⟨none, some 0, some 0, some 2147483642⟩) { loadedWith [] with pc := 5 }) State.pc =
        some 2147483647 := by decide

theorem witness_BranchFaults :
    faultOf (runEX (.beq ⟨none, none, some 0, some 1⟩) (loadedWith [])) = some (.missingOperand .BEQ .rs1) ∧
      faultOf (runEX (.bne ⟨none, some 32, none, some 1⟩) (loadedWith [])) = some (.registerBounds 32) ∧
      faultOf (runEX (.bne ⟨none, some 31, none, some 1⟩) (loadedWith [])) = some (.missingOperand .BNE .rs2) ∧
      faultOf (runEX (.beq ⟨none, some 0, some (-1), some 1⟩) (loadedWith [])) = some (.registerBounds (-1)) ∧
      faultOf (runEX (.beq ⟨none, some 0, some 0, some (-6)⟩) { loadedWith [] with pc := 5 }) = some (.pcBounds (-1)) ∧
      faultOf (runEX (.beq ⟨none, some 0, some 0, some 2147483643⟩) { loadedWith [] with pc := 5 }) =
        some (.pcBounds 2147483648) := by decide

theorem witness_JumpSetsPc :
    after (runEX (jmpTo 0) (loadedWith [])) State.pc = some 0 ∧
      faultOf (runEX (.jmp ⟨none, none, none, none⟩) (loadedWith [])) = some (.missingOperand .JMP .imm) ∧
      ((pairState (jmpTo 7) int0 none).pending = false ∧ (pairState (jmpTo 7) int0 none).prog.length = 7 ∧
        goesOn (step (pairState (jmpTo 7) int0 none)) = true) := by decide

theorem witness_IntRaisesPending :
    ({ loadedWith [] with active := some .EX } : State).active = some .EX ∧
      (loadedWith []).active ≠ some .EX ∧
      stepShape { loadedWith [] with pending := true } = some .frozen ∧
      stepShape { loadedWith [] with pending := true, loaded := false } = none := by decide

theorem witness_SlotsWithoutAnActionDoNothing :
    (loadedWith []).active = none ∧ (Instr.ld ⟨none, none, none, none⟩).opcode = .LD ∧
      int0.opcode ≠ .LD ∧ int0.opcode ≠ .ST ∧ commitsResult (.st ⟨none, none, none, none⟩) = false := by decide

theorem witness_ArithmeticFrame :
    latchesInEX (.add ⟨some 31, some 0, none, some 1⟩) = true ∧
      goesOn (runEX (.add ⟨some 31, some 0, none, some 1⟩) (loadedWith [])) = true ∧
      goesOn (runWB (.add ⟨some 31, some 0, none, some 1⟩) (some 1) (loadedWith [])) = true ∧
      goesOn (runMEM (.add ⟨some 31, some 0, none, some 1⟩) (loadedWith [])) = true := by decide

theorem witness_LoadFrame :
    goesOn (runMEM (.ld ⟨some 31, none, none, some 1023⟩) (loadedWith [])) = true ∧
      goesOn (runWB (.ld ⟨some 31, none, none, some 1023⟩) (some 1) (loadedWith [])) = true ∧
      goesOn (runEX (.ld ⟨some 31, none, none, some 1023⟩) (loadedWith [])) = true := by decide

theorem witness_StoreFrame :
    goesOn (runMEM (.st ⟨none, some 31, none, some 1023⟩) (loadedWith [])) = true ∧
      effectiveAddress .ST ⟨none, some 31, none, some 1023⟩ = .ok 1023 := by decide

theorem witness_ControlTransferFrame :
    goesOn (runEX (.bne ⟨none, some 0, some 0, none⟩) (loadedWith [])) = true ∧
      goesOn (runEX (jmpTo 3) (loadedWith [])) = true ∧ goesOn (runEX int0 (loadedWith [])) = true ∧
      goesOn (runMEM (.beq ⟨none, some 0, some 0, some 1⟩) (loadedWith [])) = true := by decide

theorem witness_CacheAccessContract :
    holdsTag (setAt [[], [⟨true, 0, 4⟩]] (setIndex Config.exampleParams 7)) (tagOf Config.exampleParams 7) = true ∧
      holdsTag (setAt [[⟨true, 0, 0⟩, ⟨true, 1, 8⟩], []] (setIndex Config.exampleParams 16))
        (tagOf Config.exampleParams 16) = false := by decide

theorem witness_CacheRepeatHits :
    geometryLegal Config.exampleParams.cacheCapacity Config.exampleParams.blockSize Config.exampleParams.assoc = true ∧
      cacheWf Config.exampleParams [[⟨true, 0, 0⟩, ⟨true, 1, 8⟩], []] = true := by decide

theorem witness_EvictionFollowsInsertionOrder :
    0 < ([[⟨true, 0, 0⟩, ⟨true, 1, 8⟩], []] : Cache).length ∧
      (setAt [[⟨true, 0, 0⟩, ⟨true, 1, 8⟩], []] 0).length ≤ Config.exampleParams.assoc ∧
      (∀ a ∈ [16, 24, 32], setIndex Config.exampleParams a = 0) ∧
      ([16, 24, 32].map (tagOf Config.exampleParams)).Nodup ∧
      (∀ a ∈ [16, 24, 32], ∀ l ∈ setAt [[⟨true, 0, 0⟩, ⟨true, 1, 8⟩], []] 0, l.tag ≠ tagOf Config.exampleParams a) := by
  decide

/-- V-C1: of `0, 0, 8, 0, 16, 0, 8` the second and fourth hit, and tag 0 is evicted at 16 although it was hit last. -/
theorem test_hits_do_not_reorder :
    (accessesMissed Config.exampleParams [[], []] ([0, 0, 8, 0, 16, 0, 8].map fun a => ([], a))).map Prod.snd =
        [0, 8, 16, 0, 8] ∧
      accessAll Config.exampleParams [[], []] ([0, 0, 8, 0, 16].map fun a => ([], a)) =
        [[⟨true, 1, 8⟩, ⟨true, 2, 16⟩], []] := by decide

theorem witness_AddressMapping :
    geometryLegal Config.exampleParams.cacheCapacity Config.exampleParams.blockSize Config.exampleParams.assoc =
      true := by decide

theorem witness_ConstructionChecksTheGeometry :
    ((1 : Int) ≤ 8 ∧ (1 : Int) ≤ 4 ∧ (1 : Int) ≤ 2 ∧ (4 * 2 : Int) ∣ 8) ∧
      ¬((1 : Int) ≤ 10 ∧ (1 : Int) ≤ 4 ∧ (1 : Int) ≤ 2 ∧ (4 * 2 : Int) ∣ 10) ∧
      ¬((1 : Int) ≤ 16 ∧ (1 : Int) ≤ 0 ∧ (1 : Int) ≤ 2 ∧ (0 * 2 : Int) ∣ 16) := by decide

/-- A FIFO of depth 2 that holds the given tags. -/
def shortFifo (q : List Tag) : State :=
  State.afterLoad { Config.exampleParams with irqDepth := some 2 } q []

theorem witness_ExternalFifoOrder :
    (loadedWith []).params.irqDepth = none ∧ (loadedWith []).irqFifo = [] ∧
      (shortFifo [⟨1⟩]).params.irqDepth = some 2 ∧ (shortFifo [⟨1⟩]).irqFifo.length < 2 ∧
      2 ≤ (shortFifo [⟨1⟩, ⟨2⟩]).irqFifo.length := by decide

theorem witness_SetPendingIsIdempotent : ({ loadedWith [] with pending := true } : State).pending = true := rfl

theorem witness_SnapshotsChangeNothing :
    Operation.registers.reads = true ∧ (0 : Fin 1024).val ≤ (1023 : Fin 1024).val ∧
      (0 : Fin 1024).val + 1023 ≤ (1023 : Fin 1024).val ∧ (1023 : Fin 1024).val + 0 ≤ (1023 : Fin 1024).val := by decide

/-- V-L4 before step 5: a load from address 1024 in MEM. -/
def aboutToFault : State :=
  withSlots ⟨none, none, none, some (fresh (.ld ⟨some 1, none, none, some 1024⟩)), none⟩ (loadedWith [])

theorem witness_FaultIsStickyUntilALoad :
    faultOf (step aboutToFault) = some (.memoryBounds 1024) ∧
      faultOf (step (pairState (jmpTo (-1)) int0 none)) = some (.pcBounds (-1)) ∧
      faultOf (step (pairState (.add ⟨some 1, some 32, none, some 1⟩) int0 none)) = some (.registerBounds 32) ∧
      faultOf (step (pairState (.add ⟨some 1, some 2, none, none⟩) int0 none)) = some (.missingOperand .ADD .imm) := by
  decide

/-- V-L4: `cycle` stays 4, and the fault status is `MemoryBounds`. -/
theorem test_fault_keeps_cycle :
    ((perform .step { aboutToFault with cycle := 4 }).1.cycle, (perform .step { aboutToFault with cycle := 4 }).1.fault) =
      (4, some .memoryBounds) := by decide

theorem witness_EveryRegisterIsOrdinary :
    (0 : Fin 32) ≠ 31 ∧ outOfRegisters 32 ∧ outOfRegisters (-1) := ⟨by decide, .inr (by decide), .inl (by decide)⟩

theorem witness_MemoryReadAfterWrite : Memory.wf [(0, 1), (1023, 5)] = true ∧ 1023 < 1024 := by decide

theorem witness_IntDestroysTheTwoBehindIt :
    (trackedState int0).ready ∧ (trackedState int0).slots.EX = some (fresh int0) ∧
      ∃ t, step (trackedState int0) = .next t :=
  ⟨⟨rfl, rfl, rfl⟩, rfl, _, rfl⟩

theorem witness_LoneArithmeticLoadOrStoreCompletesInSixSteps :
    (∀ i : Instr, (loadedWith [i]).ready ∧ (loadedWith [i]).slots = ⟨none, none, none, none, none⟩ ∧
      (loadedWith [i]).prog[(loadedWith [i]).pc]? = some i ∧
      (loadedWith [i]).pc + 1 = (loadedWith [i]).prog.length) ∧
    (∃ b v, hasSecondOperand ⟨some 0, some 31, none, some 1⟩ (loadedWith [.add ⟨some 0, some 31, none, some 1⟩]) b ∧
      arithmeticResult (.add ⟨some 0, some 31, none, some 1⟩)
        ((loadedWith [.add ⟨some 0, some 31, none, some 1⟩]).regs.get 31) b = some v) ∧
    (Operands.mk (some 31) none none (some 1023)).imm = some ((1023 : Fin 1024).val : Int) ∧
    (Operands.mk none (some 31) none (some 0)).rs1 = some ((31 : Fin 32).val : Int) :=
  ⟨fun _ => ⟨⟨rfl, rfl, rfl⟩, rfl, rfl, rfl⟩, ⟨1, 1, .inr ⟨rfl, 1, rfl, by decide⟩, by decide⟩, by decide, by decide⟩

end Sys2Proof.Tests
end

/-! The encoder and the decoder of `F64` are inverse (R78, R79). Both directions go through one characterisation each:
`encode_eq_some_iff` for the encoder, `decode_eq_ok_iff` for the decoder. -/

namespace Sys2Proof

/-- Every field whose presence bit is 0 holds zeros (R75), what the decoder demands beyond a legal opcode (R87). -/
def absentFieldsZero (W : Code) : Prop :=
  (rdPresent W = false → rdField W = 0) ∧ (rs1Present W = false → rs1Field W = 0) ∧
    (rs2Present W = false → rs2Field W = 0) ∧ (immPresent W = false → immField W = 0)

/-! ## Where the encoder is defined -/

theorem absentOr_iff {α : Type} {check : α → Bool} {f : Option α} :
    absentOr check f = true ↔ ∀ v, f = some v → check v = true := by
  cases f with
  | none => simp [absentOr]
  | some v => simp [absentOr]

theorem registerFits_iff {i : Int} : registerFits i = true ↔ 0 ≤ i ∧ i ≤ 255 := by
  simp only [registerFits, Bool.and_eq_true, decide_eq_true_eq]
  omega

theorem immFits_iff {v : Int} : immFits v = true ↔ -2147483648 ≤ v ∧ v ≤ 2147483647 := by
  simp only [immFits, Bool.and_eq_true, decide_eq_true_eq]
  omega

theorem encodable_iff {i : Instr} :
    i.encodable = true ↔ absentOr registerFits i.operands.rd = true ∧ absentOr registerFits i.operands.rs1 = true ∧
      absentOr registerFits i.operands.rs2 = true ∧ absentOr immFits i.operands.imm = true := by
  simp only [Instr.encodable, Operands.encodable, Bool.and_eq_true, and_assoc]

theorem encode_eq_some_iff {i : Instr} {W : Code} :
    encode i = some W ↔ i.encodable = true ∧ encodeWord i = W := by
  simp only [encode, Option.ite_none_right_eq_some, Option.some.injEq]

/-! ## The value fields -/

theorem toNat_encodeRegister {f : Option Int} (h : absentOr registerFits f = true) :
    ((encodeRegister f).toNat : Int) = f.getD 0 := by
  have hf := decodeRegister_encodeRegister h
  cases f with
  | none => rfl
  | some i => simpa [decodeRegister] using hf

theorem toInt_encodeImmediate {f : Option Int} (h : absentOr immFits f = true) :
    (encodeImmediate f).toInt = f.getD 0 := by
  have hf := decodeImmediate_encodeImmediate h
  cases f with
  | none => rfl
  | some v => simpa [decodeImmediate] using hf

@[simp] theorem isSome_decodeRegister (present : Bool) (field : BitVec 8) :
    (decodeRegister present field).isSome = present := by cases present <;> rfl

@[simp] theorem isSome_decodeImmediate (present : Bool) (field : BitVec 32) :
    (decodeImmediate present field).isSome = present := by cases present <;> rfl

theorem decodeRegister_fits (present : Bool) (field : BitVec 8) :
    absentOr registerFits (decodeRegister present field) = true := by
  cases present with
  | false => rfl
  | true =>
    have hlt := field.isLt
    rw [decodeRegister, if_pos rfl, absentOr, registerFits_iff]
    omega

theorem decodeImmediate_fits (present : Bool) (field : BitVec 32) :
    absentOr immFits (decodeImmediate present field) = true := by
  cases present with
  | false => rfl
  | true =>
    have hlo := field.le_toInt
    have hhi := field.toInt_lt
    rw [decodeImmediate, if_pos rfl, absentOr, immFits_iff]
    omega

theorem encodeRegister_of_absent {f : Option Int} (h : f.isSome = false) : encodeRegister f = 0 := by
  cases f with
  | none => rfl
  | some i => cases h

theorem encodeImmediate_of_absent {f : Option Int} (h : f.isSome = false) : encodeImmediate f = 0 := by
  cases f with
  | none => rfl
  | some v => cases h

/-! ## Where the decoder answers a record -/

theorem instr_eq_iff {op : Opcode} {o : Operands} {i : Instr} :
    op.instr o = i ↔ op = i.opcode ∧ o = i.operands := by
  constructor
  · rintro rfl
    simp
  · rintro ⟨rfl, rfl⟩
    exact instr_opcode_operands i

/-- Each test of the decoder answers the record only when the absent field it looks at is all zeros (R87). -/
theorem ite_nonzeroAbsent_eq_ok {n : Nat} {present : Bool} {field : BitVec n} {e : DecodeError}
    {r : Except DecodeError Instr} {i : Instr} :
    (if !present && field != 0 then .error e else r) = .ok i ↔ (present = false → field = 0) ∧ r = .ok i := by
  cases present with
  | true => simp
  | false => by_cases hz : field = 0#n <;> simp [hz]

/-- R78 as a condition on the word: a legal opcode number, zeros in the absent fields, and the record read off. -/
theorem decode_eq_ok_iff {W : Code} {i : Instr} :
    decode W = .ok i ↔
      opcodeOf (opcField W).toNat = some i.opcode ∧ absentFieldsZero W ∧ decodeOperands W = i.operands := by
  unfold decode
  cases hop : opcodeOf (opcField W).toNat with
  | none => simp
  | some op =>
    simp only [ite_nonzeroAbsent_eq_ok, Except.ok.injEq, instr_eq_iff, Option.some.injEq, absentFieldsZero]
    tauto

/-! ## The round trips -/

theorem absentFieldsZero_encodeWord (i : Instr) : absentFieldsZero (encodeWord i) := by
  simp only [absentFieldsZero, rdPresent_encodeWord, rs1Present_encodeWord, rs2Present_encodeWord,
    immPresent_encodeWord, rdField_encodeWord, rs1Field_encodeWord, rs2Field_encodeWord, immField_encodeWord]
  exact ⟨encodeRegister_of_absent, encodeRegister_of_absent, encodeRegister_of_absent, encodeImmediate_of_absent⟩

theorem decodeOperands_encodeWord {i : Instr} (h : i.encodable = true) :
    decodeOperands (encodeWord i) = i.operands := by
  obtain ⟨hrd, hrs1, hrs2, himm⟩ := encodable_iff.1 h
  simp only [decodeOperands, rdPresent_encodeWord, rs1Present_encodeWord, rs2Present_encodeWord,
    immPresent_encodeWord, rdField_encodeWord, rs1Field_encodeWord, rs2Field_encodeWord, immField_encodeWord,
    decodeRegister_encodeRegister hrd, decodeRegister_encodeRegister hrs1, decodeRegister_encodeRegister hrs2,
    decodeImmediate_encodeImmediate himm]

theorem decode_encodeWord {i : Instr} (h : i.encodable = true) : decode (encodeWord i) = .ok i := by
  refine decode_eq_ok_iff.2 ⟨?_, absentFieldsZero_encodeWord i, decodeOperands_encodeWord h⟩
  rw [opcField_encodeWord, opcodeOf_number]

theorem encodable_of_decodeOperands {W : Code} {i : Instr} (h : decodeOperands W = i.operands) :
    i.encodable = true := by
  rw [encodable_iff, ← h]
  exact ⟨decodeRegister_fits _ _, decodeRegister_fits _ _, decodeRegister_fits _ _, decodeImmediate_fits _ _⟩

/-- The nine fields of `encodeWord i` are those of the word `i` was decoded from, and a word is its fields. -/
theorem encodeWord_of_decode {W : Code} {i : Instr} (h : decode W = .ok i) : encodeWord i = W := by
  obtain ⟨hop, ⟨hrd, hrs1, hrs2, himm⟩, ho⟩ := decode_eq_ok_iff.1 h
  rw [code_eq_fields W, encodeWord, ← ho, number_of_opcodeOf hop]
  simp only [decodeOperands, isSome_decodeRegister, isSome_decodeImmediate, encodeRegister_decodeRegister hrd,
    encodeRegister_decodeRegister hrs1, encodeRegister_decodeRegister hrs2, encodeImmediate_decodeImmediate himm]

/-! ## The four clauses of the obligation -/

theorem exists_encode_iff (i : Instr) : (∃ W, encode i = some W) ↔
    (∀ r, i.operands.rd = some r → 0 ≤ r ∧ r ≤ 255) ∧ (∀ r, i.operands.rs1 = some r → 0 ≤ r ∧ r ≤ 255) ∧
      (∀ r, i.operands.rs2 = some r → 0 ≤ r ∧ r ≤ 255) ∧
      (∀ v, i.operands.imm = some v → -2147483648 ≤ v ∧ v ≤ 2147483647) := by
  simp only [encode_eq_some_iff, exists_and_left, exists_eq', and_true, encodable_iff, absentOr_iff,
    registerFits_iff, immFits_iff]

theorem fields_of_encode {i : Instr} {W : Code} (h : encode i = some W) :
    opcField W = i.opcode.number ∧ rdPresent W = i.operands.rd.isSome ∧ rs1Present W = i.operands.rs1.isSome ∧
      rs2Present W = i.operands.rs2.isSome ∧ immPresent W = i.operands.imm.isSome ∧
      ((rdField W).toNat : Int) = i.operands.rd.getD 0 ∧ ((rs1Field W).toNat : Int) = i.operands.rs1.getD 0 ∧
      ((rs2Field W).toNat : Int) = i.operands.rs2.getD 0 ∧ (immField W).toInt = i.operands.imm.getD 0 := by
  obtain ⟨hi, rfl⟩ := encode_eq_some_iff.1 h
  obtain ⟨hrd, hrs1, hrs2, himm⟩ := encodable_iff.1 hi
  rw [rdField_encodeWord, rs1Field_encodeWord, rs2Field_encodeWord, immField_encodeWord]
  exact ⟨opcField_encodeWord i, rdPresent_encodeWord i, rs1Present_encodeWord i, rs2Present_encodeWord i,
    immPresent_encodeWord i, toNat_encodeRegister hrd, toNat_encodeRegister hrs1, toNat_encodeRegister hrs2,
    toInt_encodeImmediate himm⟩

theorem decode_of_encode {i : Instr} {W : Code} (h : encode i = some W) : decode W = .ok i := by
  obtain ⟨hi, rfl⟩ := encode_eq_some_iff.1 h
  exact decode_encodeWord hi

theorem encode_of_decode {W : Code} {i : Instr} (h : decode W = .ok i) : encode i = some W := by
  obtain ⟨_, _, ho⟩ := decode_eq_ok_iff.1 h
  exact encode_eq_some_iff.2 ⟨encodable_of_decodeOperands ho, encodeWord_of_decode h⟩

/-- Settles O1: the domain of `encode`, the fields it sets, and the two round trips. -/
theorem encodeAndDecodeAgree : Obligations.EncodeAndDecodeAgree :=
  ⟨exists_encode_iff, fun _ _ => fields_of_encode, fun _ _ => decode_of_encode, fun _ _ => encode_of_decode⟩

end Sys2Proof

/-! JMP (R122): its action in EX, the slots where it has none (R147), and the run it leaves finished (R160). -/

namespace Sys2Proof.Machine

/-! ## The target -/

theorem jumpTo_missing {op : Opcode} {o : Operands} (ho : o.imm = none) (s : State) :
    jumpTo op o s = .error (.missingOperand op .imm) := by
  simp only [jumpTo, ho, need_none]

theorem jumpTo_outOfRange {op : Opcode} {o : Operands} {t : Int} (ho : o.imm = some t)
    (ht : t < 0 ∨ 2147483647 < t) (s : State) : jumpTo op o s = .error (.pcBounds t) := by
  have hout : ¬(0 ≤ t ∧ t ≤ 2147483647) := by omega
  simp only [jumpTo, ho, need_some, setPc_error hout]

/-! ## The instruction -/

/-- Everything JMP can answer in EX, short of a fault (R122). -/
theorem exec_jmp_EX_eq_next {o : Operands} {s t : State} (hs : s.active = some .EX) :
    exec (.jmp o) s = .next t ↔ ∃ k : Nat, o.imm = some (k : Int) ∧ k ≤ 2147483647 ∧ t = flush (putPc k s) := by
  rw [exec_jmp_EX hs, orFault_eq_next]
  constructor
  · rintro ⟨s', hj, ht⟩
    obtain ⟨k, ho, hk, rfl⟩ := jumpTo_eq_ok.1 hj
    cases ht
    exact ⟨k, ho, hk, rfl⟩
  · rintro ⟨k, ho, hk, rfl⟩
    exact ⟨putPc k s, jumpTo_eq_ok.2 ⟨k, ho, hk, rfl⟩, rfl⟩

theorem exec_jmp_EX_next {o : Operands} {s : State} (hs : s.active = some .EX) {t : Nat}
    (ho : o.imm = some (t : Int)) (ht : t ≤ 2147483647) : exec (.jmp o) s = .next (flush (putPc t s)) :=
  (exec_jmp_EX_eq_next hs).2 ⟨t, ho, ht, rfl⟩

theorem exec_jmp_EX_missing {o : Operands} {s : State} (hs : s.active = some .EX) (ho : o.imm = none) :
    exec (.jmp o) s = .fault (.missingOperand .JMP .imm) := by
  rw [exec_jmp_EX hs, jumpTo_missing ho, orFault_error]

theorem exec_jmp_EX_outOfRange {o : Operands} {s : State} (hs : s.active = some .EX) {t : Int}
    (ho : o.imm = some t) (ht : t < 0 ∨ 2147483647 < t) : exec (.jmp o) s = .fault (.pcBounds t) := by
  rw [exec_jmp_EX hs, jumpTo_outOfRange ho ht, orFault_error]

/-- The dashes of JMP in the table of R147. -/
theorem exec_jmp_not_EX {o : Operands} {s : State} (hs : s.active ≠ some .EX) : exec (.jmp o) s = .next s := by
  change execJmp o s = .next s
  unfold execJmp
  split
  · exact absurd ‹_› hs
  all_goals rfl

/-! ## The step that runs it -/

theorem serve_of_occupied {run : Instr → State → Result} {sl : Slot} {s : State} {e : Entry}
    (h : s.slots.get sl = some e) : serve run sl s = run e.instr (serveSlot sl s) := by
  simp only [serve, h]

theorem isFinished_iff {s : State} : isFinished s = true ↔ s.slots = Slots.empty ∧ s.prog.length ≤ s.pc := by
  simp only [isFinished, Bool.and_eq_true, decide_eq_true_eq]

/-- R160 after a flush (R146): the slots are empty, so only `pc` decides. -/
theorem isFinished_flush (s : State) : isFinished (flush s) = true ↔ s.prog.length ≤ s.pc := by
  simp [isFinished_iff]

/-- A step with JMP in EX ends in the flush, the WB and MEM parts before it touching neither the program nor the
entry in EX (R140, R146). -/
theorem step_jmp_cases {s t : State} {e : Entry} {o : Operands} {k : Nat} (hp : s.pending = false)
    (he : s.slots.EX = some e) (hi : e.instr = .jmp o) (ho : o.imm = some (k : Int)) (h : step s = .next t) :
    ∃ s2, KeptBeforeEX s s2 ∧ t = flush (putPc k (serveSlot .EX s2)) := by
  obtain ⟨-, -, s2, s3, -, -, hEX, -, hkept, rfl⟩ := step_ready_cases hp h
  have hslot : s2.slots.get .EX = some e := hkept.slotEX.trans he
  rw [serve_of_occupied hslot, hi, exec_jmp_EX_eq_next (serveSlot_active .EX s2)] at hEX
  obtain ⟨k', ho', -, rfl⟩ := hEX
  have hk : k' = k := by simpa [ho] using ho'.symm
  subst hk
  exact ⟨s2, hkept, finishStep_ended (flush_active _)⟩

theorem isFinished_of_jmp_beyond {s t : State} {e : Entry} {o : Operands} {k : Nat} (hp : s.pending = false)
    (he : s.slots.EX = some e) (hi : e.instr = .jmp o) (ho : o.imm = some (k : Int)) (hk : s.prog.length ≤ k)
    (h : step s = .next t) : isFinished t = true := by
  obtain ⟨s2, hkept, rfl⟩ := step_jmp_cases hp he hi ho h
  rw [isFinished_flush, putPc_prog, putPc_pc, serveSlot_prog, hkept.prog]
  exact hk

/-- Settles O38: the three outcomes of JMP in EX, no action elsewhere, its opcode number, and the finished run. -/
theorem jumpSetsPc : Obligations.JumpSetsPc :=
  ⟨fun _ _ hs => ⟨fun _ => exec_jmp_EX_next hs, exec_jmp_EX_missing hs, fun _ => exec_jmp_EX_outOfRange hs⟩,
    fun _ _ => exec_jmp_not_EX, fun o => opcField_encodeWord (.jmp o),
    fun _ _ _ _ _ => isFinished_of_jmp_beyond⟩

end Sys2Proof.Machine

/-! INT (R130): its action in EX is `exec_int_EX`; here the slots where it has none (R147), and the pending flag that
never lets it run while set (R141). -/

namespace Sys2Proof.Machine

/-- The dashes of INT in the table of R147. -/
theorem exec_int_not_EX {o : Operands} {s : State} (hs : s.active ≠ some .EX) : exec (.int o) s = .next s := by
  change execInt o s = .next s
  unfold execInt
  split
  · exact absurd ‹_› hs
  all_goals rfl

/-- R141: with the flag set no stage action runs, so the step is an interrupt entry, or it is refused. -/
theorem stepShape_of_pending {s : State} (hp : s.pending = true) :
    stepShape s = some .frozen ∨ stepShape s = none := by
  cases hk : stepShape s with
  | none => exact .inr rfl
  | some k =>
    obtain ⟨rfl, -⟩ | ⟨⟨-, -, hclear⟩, -⟩ := stepShape_cases hk
    · exact .inl rfl
    · exact absurd (hp.symm.trans hclear) Bool.noConfusion

/-- Settles O39: the flush that raises the flag in EX, no action elsewhere, its opcode number, and no run of INT while
the flag is set. -/
theorem intRaisesPending : Obligations.IntRaisesPending :=
  ⟨fun _ _ => exec_int_EX, fun _ _ => exec_int_not_EX, fun o => opcField_encodeWord (.int o),
    fun _ => stepShape_of_pending⟩

end Sys2Proof.Machine

/-! The shapes of a step (R140): which state each shape answers, and the statements of 44_pipeline_sequencer.md about
the cycle counter (R142), the frozen cycle (R141), the flush (R146), the stall (R150, R151), the advance (R155, R156)
and the finished engine (R160, R162). -/

namespace Sys2Proof.Machine

/-! ## The stage actions -/

/-- Stage actions that EX does not end keep the slots' instructions, `pc` and `cycle` (R140, steps 2 to 4). -/
theorem stageActions_kept {s s' : State} (h : stageActions exec s = .next s') (ha : s'.active ≠ none) :
    ∃ s2, KeptBeforeEX s s2 ∧ KeptInEX s2 s' := by
  obtain ⟨s1, s2, hWB, hMEM, hEX⟩ := stageActions_cases h
  exact ⟨s2, serve_WB_MEM_kept hWB hMEM, keptInEX_of_active hEX ha⟩

theorem serve_of_empty {run : Instr → State → Result} {sl : Slot} {s : State} (h : s.slots.get sl = none) :
    serve run sl s = .next (serveSlot sl s) := by
  simp only [serve, h]

/-- With every slot empty no instruction acts (R140). -/
theorem stageActions_empty {run : Instr → State → Result} {s : State} (h : s.slots = Slots.empty) :
    stageActions run s = .next (serveSlot .EX s) := by
  have hempty (sl : Slot) : s.slots.get sl = none := by rw [h]; cases sl <;> rfl
  have hMEM : (serveSlot .WB s).slots.get .MEM = none := hempty .MEM
  have hEX : (serveSlot .MEM (serveSlot .WB s)).slots.get .EX = none := hempty .EX
  rw [stageActions, serve_of_empty (hempty .WB), andThen_next, serve_of_empty hMEM, andThen_next, serve_of_empty hEX]
  rfl

/-! ## The hazard condition -/

theorem fieldsMatch_iff {absentMatch : Bool} {a b : Option Int} :
    fieldsMatch absentMatch a b = true ↔
      (∃ r, a = some r ∧ b = some r) ∨ (a = none ∧ b = none ∧ absentMatch = true) := by
  cases a with
  | none => cases b <;> simp [fieldsMatch]
  | some i =>
    cases b with
    | none => simp [fieldsMatch]
    | some j => simpa [fieldsMatch] using eq_comm

theorem hazard_iff {s : State} :
    hazard s = true ↔ ∃ d x, s.slots.ID = some d ∧ s.slots.EX = some x ∧
      fieldsMatch s.params.hazardAbsentMatch d.instr.operands.rs1 x.instr.operands.rd = true := by
  unfold hazard
  cases s.slots.ID with
  | none => simp
  | some d => cases s.slots.EX <;> simp

/-! ## The step of each shape -/

theorem stepShape_frozen_iff {s : State} :
    stepShape s = some .frozen ↔ s.fault = none ∧ s.loaded = true ∧ s.pending = true := by
  constructor
  · intro h
    obtain ⟨-, hflags⟩ | ⟨-, -, -, ⟨hk, -⟩ | ⟨hk, -⟩ | ⟨hk, -⟩⟩ := stepShape_cases h
    · exact hflags
    all_goals cases hk
  · rintro ⟨hf, hl, hp⟩
    simp [stepShape, hf, hl, hp]

/-- The frozen cycle (R141). -/
theorem step_of_frozen {s : State} (h : stepShape s = some .frozen) : step s = .next (interruptEntry s) := by
  obtain ⟨hf, hl, hp⟩ := stepShape_frozen_iff.1 h
  exact step_frozen hf hl hp

/-- A step whose stage actions answer a state (R140, steps 5 and 6). -/
theorem step_of_stageActions {s s' : State} (h : s.ready) (hs : stageActions exec s = .next s') :
    step s = .next (finishStep s') := by
  rw [step_ready h, hs, andThen_next]

/-- A flush step: EX ends it, so it answers what the stage actions leave, with no hazard check and no shift (R146). -/
theorem step_of_flush {s : State} (h : stepShape s = some .flush) :
    s.ready ∧ ∃ s', stageActions exec s = .next s' ∧ s'.active = none ∧ step s = .next s' := by
  obtain ⟨hk, -⟩ | ⟨hr, s', hs, ⟨-, ha⟩ | ⟨hk, -⟩ | ⟨hk, -⟩⟩ := stepShape_cases h
  case inr.inl =>
    exact ⟨hr, s', hs, ha, by rw [step_of_stageActions hr hs, finishStep_ended ha]⟩
  all_goals cases hk

/-- The stall cycle (R151). -/
theorem step_of_stall {s : State} (h : stepShape s = some .stall) :
    ∃ s2 s', stageActions exec s = .next s' ∧ KeptBeforeEX s s2 ∧ KeptInEX s2 s' ∧
      step s = .next (stallShift s') := by
  obtain ⟨hk, -⟩ | ⟨hr, s', hs, ⟨hk, -⟩ | ⟨-, ⟨a, ha⟩, hz⟩ | ⟨hk, -⟩⟩ := stepShape_cases h
  case inr.inr.inl =>
    obtain ⟨s2, K2, K3⟩ := stageActions_kept hs (by simp [ha])
    exact ⟨s2, s', hs, K2, K3, by rw [step_of_stageActions hr hs, finishStep_stall ha hz]⟩
  all_goals cases hk

/-- The normal advance (R155). -/
theorem step_of_advance {s : State} (h : stepShape s = some .advance) :
    ∃ s2 s', stageActions exec s = .next s' ∧ KeptBeforeEX s s2 ∧ KeptInEX s2 s' ∧
      step s = .next (advanceShift s') := by
  obtain ⟨hk, -⟩ | ⟨hr, s', hs, ⟨hk, -⟩ | ⟨hk, -⟩ | ⟨-, ⟨a, ha⟩, hz⟩⟩ := stepShape_cases h
  case inr.inr.inr =>
    obtain ⟨s2, K2, K3⟩ := stageActions_kept hs (by simp [ha])
    exact ⟨s2, s', hs, K2, K3, by rw [step_of_stageActions hr hs, finishStep_advance ha hz]⟩
  all_goals cases hk

/-- The shape of a step whose stage actions EX does not end (R150). -/
theorem stepShape_of_active {s s' : State} (h : s.ready) (hs : stageActions exec s = .next s')
    (ha : s'.active ≠ none) : stepShape s = if hazard s then some .stall else some .advance := by
  obtain ⟨s2, K2, K3⟩ := stageActions_kept hs ha
  rw [stepShape_ready h, ← hazard_kept K2 K3]
  simp only [hs, K3.active]

/-- A step that answers a next state has one of the four shapes (R140). -/
theorem exists_stepShape {s t : State} (h : step s = .next t) : ∃ k, stepShape s = some k := by
  obtain ⟨hf, hl, ⟨hp, -⟩ | ⟨hp, s', hs, -⟩⟩ := step_cases h
  · exact ⟨.frozen, stepShape_frozen_iff.2 ⟨hf, hl, hp⟩⟩
  · have hr : s.ready := ⟨hf, hl, hp⟩
    by_cases ha : s'.active = none
    · exact ⟨.flush, by rw [stepShape_ready hr]; simp only [hs, ha]⟩
    · rw [stepShape_of_active hr hs ha]
      split
      · exact ⟨.stall, rfl⟩
      · exact ⟨.advance, rfl⟩

/-! ## The flush (R146) -/

/-- What ended a flush step, and what it leaves of the state that the WB and MEM actions left. -/
theorem step_flush_cases {s t : State} (h : stepShape s = some .flush) (ht : step s = .next t) :
    s.pending = false ∧ ∃ s1 s2 e, serve exec .WB s = .next s1 ∧ serve exec .MEM s1 = .next s2 ∧
      KeptBeforeEX s s2 ∧ s.slots.EX = some e ∧
      (((e.instr.opcode = .BEQ ∨ e.instr.opcode = .BNE ∨ e.instr.opcode = .JMP) ∧
          ∃ k : Nat, t = flush (putPc k (serveSlot .EX s2))) ∨
        (e.instr.opcode = .INT ∧ t = flush (raisePending (serveSlot .EX s2)))) := by
  obtain ⟨⟨-, -, hp⟩, s', hs, ha, hstep⟩ := step_of_flush h
  cases hstep.symm.trans ht
  obtain ⟨s1, s2, hWB, hMEM, hEX⟩ := stageActions_cases hs
  have K := serve_WB_MEM_kept hWB hMEM
  obtain ⟨e, k, he, hop, -, hflush⟩ | ⟨e, he, hop, hflush⟩ := serve_EX_ended hEX ha
  · exact ⟨hp, s1, s2, e, hWB, hMEM, K, K.slotEX.symm.trans he, .inl ⟨hop, k, hflush⟩⟩
  · exact ⟨hp, s1, s2, e, hWB, hMEM, K, K.slotEX.symm.trans he, .inr ⟨hop, hflush⟩⟩

theorem slots_of_flush {s t : State} (h : stepShape s = some .flush) (ht : step s = .next t) :
    t.slots = Slots.empty := by
  obtain ⟨-, s1, s2, e, -, -, -, -, ⟨-, k, rfl⟩ | ⟨-, rfl⟩⟩ := step_flush_cases h ht
  · exact flush_slots _
  · exact flush_slots _

theorem cycle_of_flush {s t : State} (h : stepShape s = some .flush) (ht : step s = .next t) :
    t.cycle = s.cycle + 1 := by
  obtain ⟨-, s1, s2, e, -, -, K, -, ⟨-, k, rfl⟩ | ⟨-, rfl⟩⟩ := step_flush_cases h ht
  · rw [flush_cycle, putPc_cycle, serveSlot_cycle, K.cycle]
  · rw [flush_cycle, raisePending_cycle, serveSlot_cycle, K.cycle]

/-- Settles O19: the state `flush` leaves, after a transfer with its `pc`, after INT with the flag. -/
theorem flushEmptiesEverySlot : Obligations.FlushEmptiesEverySlot := by
  intro s t h ht
  obtain ⟨hp, s1, s2, e, hWB, hMEM, K, he, ⟨hop, k, rfl⟩ | ⟨hop, rfl⟩⟩ := step_flush_cases h ht
  · have hnotINT : e.instr.opcode ≠ .INT := by intro hINT; simp [hINT] at hop
    have hclear : s2.pending = false := K.pending.trans hp
    refine ⟨⟨e, he, by tauto, fun hINT => absurd hINT hnotINT, fun _ => hclear⟩, s1, s2, hWB, hMEM, ?_⟩
    rw [← K.cycle]
    rfl
  · refine ⟨⟨e, he, by tauto, fun _ => ⟨rfl, K.pc⟩, fun hne => absurd hop hne⟩, s1, s2, hWB, hMEM, ?_⟩
    rw [← K.cycle]
    rfl

/-! ## The cycle counter (R142) -/

theorem step_cycle {s t : State} (h : step s = .next t) : t.cycle = s.cycle + 1 := by
  obtain ⟨k, hk⟩ := exists_stepShape h
  cases k with
  | frozen =>
    cases (step_of_frozen hk).symm.trans h
    rfl
  | flush => exact cycle_of_flush hk h
  | stall =>
    obtain ⟨s2, s', -, K2, K3, hstep⟩ := step_of_stall hk
    cases hstep.symm.trans h
    rw [stallShift_cycle, K3.cycle, K2.cycle]
  | advance =>
    obtain ⟨s2, s', -, K2, K3, hstep⟩ := step_of_advance hk
    cases hstep.symm.trans h
    rw [advanceShift_cycle, K3.cycle, K2.cycle]

theorem run_cycle {n : Nat} {s t : State} (h : run n s = .next t) : t.cycle = s.cycle + n := by
  induction n generalizing s with
  | zero => cases h; rfl
  | succ n ih =>
    obtain ⟨u, hu, hrest⟩ := andThen_eq_next.1 h
    rw [ih hrest, step_cycle hu]
    omega

theorem loadProgram_eq_ok {p : List Instr} {s t : State} (h : loadProgram p s = .ok t) :
    t = State.afterLoad s.params s.irqFifo p := by
  unfold loadProgram at h
  split at h <;> cases h
  rfl

theorem trigger_cycle (tag : Tag) (s : State) : (orRefused s (trigger tag s)).1.cycle = s.cycle := by
  unfold trigger
  split
  · split <;> rfl
  · rfl

theorem handleNext_cycle (s : State) : (handleNext s).2.cycle = s.cycle := by
  unfold handleNext
  split <;> rfl

theorem perform_cycle {op : Operation} {s : State} (hstep : op ≠ .step) (hload : ∀ p, op ≠ .loadProgram p)
    (himage : ∀ image, op ≠ .loadImage image) : (perform op s).1.cycle = s.cycle := by
  cases op with
  | step => exact absurd rfl hstep
  | loadProgram p => exact absurd rfl (hload p)
  | loadImage image => exact absurd rfl (himage image)
  | trigger tag => exact trigger_cycle tag s
  | handleNext => exact handleNext_cycle s
  | _ => rfl

/-- Settles O10, the count over a run by induction on the number of steps. -/
theorem everyStepAddsOneCycle : Obligations.EveryStepAddsOneCycle := by
  refine ⟨fun _ _ => step_cycle, fun _ _ => perform_cycle, fun p s t u n hload hrun => ?_⟩
  rw [run_cycle hrun, loadProgram_eq_ok hload]
  exact Nat.zero_add n

/-! ## The frozen cycle (R141) -/

/-- A step that raises the flag is a flush: the frozen cycle clears it, a stall and an advance keep it. -/
theorem flush_of_raised {s t : State} (hp : s.pending = false) (h : step s = .next t) (ht : t.pending = true) :
    stepShape s = some .flush := by
  have hchanged : t.pending ≠ s.pending := by simp [hp, ht]
  obtain ⟨k, hk⟩ := exists_stepShape h
  cases k with
  | frozen => cases (step_of_frozen hk).symm.trans h; cases ht
  | flush => exact hk
  | stall =>
    obtain ⟨s2, s', -, K2, K3, hstep⟩ := step_of_stall hk
    cases hstep.symm.trans h
    exact absurd (K3.pending.trans K2.pending) hchanged
  | advance =>
    obtain ⟨s2, s', -, K2, K3, hstep⟩ := step_of_advance hk
    cases hstep.symm.trans h
    exact absurd (K3.pending.trans K2.pending) hchanged

/-- Settles O11: `interruptEntry` is the whole frozen step, it clears the flag, and only a flush raises it. -/
theorem interruptEntryTouchesOnlyIF : Obligations.InterruptEntryTouchesOnlyIF := by
  refine ⟨fun s => step_frozen, fun s t hp h hk => ?_, fun s t hp h ht => slots_of_flush (flush_of_raised hp h ht) h⟩
  obtain ⟨-, -, hset⟩ := stepShape_frozen_iff.1 hk
  obtain ⟨-, -, ⟨-, rfl⟩ | ⟨hclear, -⟩⟩ := step_cases h
  · cases hset
  · cases hp.symm.trans hclear

/-! ## The stall (R150, R151) -/

/-- Settles O15: the stage actions keep what the hazard check compares, and `stallShift` moves EX and MEM only. -/
theorem stallMovesOnlyEXAndMEM : Obligations.StallMovesOnlyEXAndMEM := by
  refine ⟨fun s s' hr hs ha => ?_, fun s h => ?_⟩
  · have hstall : stepShape s = some .stall ↔ hazard s = true := by
      rw [stepShape_of_active hr hs ha]
      cases hazard s <;> simp
    simp only [hstall, hazard_iff, fieldsMatch_iff]
  · obtain ⟨s2, s', hs, K2, K3, hstep⟩ := step_of_stall h
    refine ⟨s', hs, hstep.trans ?_⟩
    rw [← K2.slotIF, ← K2.slotID, ← K2.pc, ← K2.cycle, ← K3.slotIF, ← K3.slotID, ← K3.pc, ← K3.cycle]
    rfl

/-! ## The advance (R155, R156) -/

/-- The advance in terms of the state the step began in: it fetches at the `pc` and shifts the slots of that state. -/
theorem advanceShift_of_kept {s s2 s' : State} (K2 : KeptBeforeEX s s2) (K3 : KeptInEX s2 s') :
    advanceShift s' = { s' with
      slots := { IF := fetchEntry s, ID := s.slots.IF, EX := s.slots.ID, MEM := s'.slots.EX, WB := s'.slots.MEM }
      pc := pcAfterFetch s
      cycle := s.cycle + 1
      active := none } := by
  have hpc : s'.pc = s.pc := K3.pc.trans K2.pc
  have hprog : s'.prog = s.prog := K3.prog.trans K2.prog
  have hfetch : fetchEntry s' = fetchEntry s := by rw [fetchEntry, hpc, hprog, fetchEntry]
  have hnext : pcAfterFetch s' = pcAfterFetch s := by rw [pcAfterFetch, hpc, hprog, pcAfterFetch]
  rw [← hfetch, ← hnext, ← K2.slotIF, ← K2.slotID, ← K2.cycle, ← K3.slotIF, ← K3.slotID, ← K3.cycle]
  rfl

/-- A fetch inside the program (R156). -/
theorem fetch_of_getElem? {s : State} {i : Instr} (h : s.prog[s.pc]? = some i) :
    fetchEntry s = some ⟨i, none⟩ ∧ pcAfterFetch s = s.pc + 1 := by
  obtain ⟨hlt, -⟩ := List.getElem?_eq_some_iff.1 h
  exact ⟨by rw [fetchEntry, h, Option.map_some], by rw [pcAfterFetch, if_pos hlt]⟩

/-- A program that is a decoded image holds at each index the instruction that the image's word decodes to (R86). -/
theorem getElem?_of_image {image : List Code} {p : List Instr} {k : Nat} {W : Code} {i : Instr}
    (himage : image.map decode = p.map Except.ok) (hW : image[k]? = some W) (hi : decode W = .ok i) :
    p[k]? = some i := by
  have hk : (image.map decode)[k]? = (p.map Except.ok)[k]? := by rw [himage]
  simpa [hW, hi, eq_comm] using hk

/-- Settles O14: `advanceShift` on what the stage actions keep, and the `pc` and IF the other shapes leave. -/
theorem advanceFetchesAndShifts : Obligations.AdvanceFetchesAndShifts := by
  refine ⟨fun s h => ?_, fun s t image W i h ht himage hW hi => ?_, fun s t ht h => ?_, fun s t ht h => ?_⟩
  · obtain ⟨s2, s', hs, K2, K3, hstep⟩ := step_of_advance h
    exact ⟨s', _, hs, hstep, advanceShift_of_kept K2 K3, by rw [K3.slotEX, K2.slotEX],
      by rw [K3.slotMEM, K2.slotMEM]⟩
  · obtain ⟨s2, s', -, K2, K3, hstep⟩ := step_of_advance h
    cases hstep.symm.trans ht
    rw [advanceShift_of_kept K2 K3]
    exact fetch_of_getElem? (getElem?_of_image himage hW hi)
  · obtain h | h := h
    · cases (step_of_frozen h).symm.trans ht
      rfl
    · obtain ⟨s2, s', -, K2, K3, hstep⟩ := step_of_stall h
      cases hstep.symm.trans ht
      exact K3.pc.trans K2.pc
  · rw [slots_of_flush h ht]
    rfl

/-! ## The finished engine (R160, R162) -/

theorem slots_eq_empty_iff {sl : Slots} : sl = Slots.empty ↔
    sl.IF = none ∧ sl.ID = none ∧ sl.EX = none ∧ sl.MEM = none ∧ sl.WB = none := by
  cases sl
  simp [Slots.empty]

theorem isFinished_afterLoad_nil (params : Params) (q : List Tag) : isFinished (State.afterLoad params q []) = true :=
  isFinished_iff.2 ⟨rfl, Nat.le_refl 0⟩

/-- A fetch beyond the program's end (R156). -/
theorem fetch_beyond {s : State} (h : s.prog.length ≤ s.pc) : fetchEntry s = none ∧ pcAfterFetch s = s.pc :=
  ⟨by rw [fetchEntry, List.getElem?_eq_none h, Option.map_none], by rw [pcAfterFetch, if_neg (Nat.not_lt.2 h)]⟩

/-- The advance of a finished engine (R162): nothing is fetched and nothing moves. -/
theorem step_of_finished {s : State} (hfin : isFinished s = true) (hr : s.ready) :
    step s = .next { s with cycle := s.cycle + 1, active := none } := by
  obtain ⟨hslots, hpc⟩ := isFinished_iff.1 hfin
  obtain ⟨hfetch, hnext⟩ := fetch_beyond (s := serveSlot .EX s) hpc
  have hclear : hazard (serveSlot .EX s) = false := by simp [hazard, hslots, Slots.empty]
  rw [step_of_stageActions hr (stageActions_empty hslots), finishStep_advance (serveSlot_active .EX s) hclear,
    advanceShift, hfetch, hnext]
  simp [serveSlot, hslots, Slots.empty]

/-- Settles O21: the five slots and `pc`, the load of the empty program, the step that only counts, and the frozen
cycle. -/
theorem finishedEngineMayBeStepped : Obligations.FinishedEngineMayBeStepped := by
  refine ⟨fun s => ?_, fun s => rfl, fun s t h => ?_, fun s => step_of_finished,
    fun s _ hf hl hp => stepShape_frozen_iff.2 ⟨hf, hl, hp⟩⟩
  · rw [isFinished_iff, slots_eq_empty_iff]
    simp only [and_assoc, ge_iff_le]
  · rw [loadProgram_eq_ok h]
    exact isFinished_afterLoad_nil s.params s.irqFifo

end Sys2Proof.Machine

/-! The cache engine: the address mapping (R174) and the access operation (R171, R175). -/

namespace Sys2Proof.Machine

/-! ## The address mapping (R174) -/

/-- The tag is the block above the set index. -/
theorem tagOf_eq_blockOf_div (p : Params) (a : Nat) : tagOf p a = blockOf p a / numSets p :=
  (Nat.div_div_eq_div_mul a p.blockSize (numSets p)).symm

/-- Set index and tag are remainder and quotient of the block, which together determine it. -/
theorem setIndex_eq_and_tagOf_eq_iff {p : Params} {a b : Nat} :
    (setIndex p a = setIndex p b ∧ tagOf p a = tagOf p b) ↔ blockOf p a = blockOf p b := by
  rw [tagOf_eq_blockOf_div, tagOf_eq_blockOf_div, and_comm]
  exact (Nat.ext_div_mod_iff (numSets p) (blockOf p a) (blockOf p b)).symm

/-- Settles O49: set index and tag are remainder and quotient of the block, and the examples are evaluated. -/
theorem addressMapping : Obligations.AddressMapping :=
  ⟨fun p a _ hlegal =>
    ⟨rfl, rfl, tagOf_eq_blockOf_div p a, setIndex_lt hlegal a, setIndex_eq_and_tagOf_eq_iff⟩, by decide⟩

/-! ## The access operation (R171, R175) -/

theorem holdsTag_iff {lines : CacheSet} {t : Nat} :
    holdsTag lines t = true ↔ ∃ l ∈ lines, l.valid = true ∧ l.tag = t := by
  simp only [holdsTag, List.any_eq_true, Bool.and_eq_true, beq_iff_eq]

theorem insertLine_eq (assoc : Nat) (lines : CacheSet) (l : CacheLine) :
    insertLine assoc lines l =
      if lines.length + 1 > assoc then (lines ++ [l]).drop 1 else lines ++ [l] := by
  rw [insertLine, List.length_append, List.length_singleton]

/-- Settles O46: the hit and the miss of `cacheAccess`, told apart by `holdsTag`. -/
theorem cacheAccessContract : Obligations.CacheAccessContract := by
  intro p c m a
  rw [← holdsTag_iff, ← insertLine_eq, Bool.not_eq_true]
  exact ⟨cacheAccess_hit, cacheAccess_miss⟩

end Sys2Proof.Machine

/-! The external interrupt FIFO (R201, R202) and the host's `setPending` (R205). -/

namespace Sys2Proof.Machine

/-! ## Triggering (R201) -/

theorem trigger_of_unbounded {s : State} (h : s.params.irqDepth = none) (t : Tag) :
    trigger t s = .ok { s with irqFifo := s.irqFifo ++ [t] } := by
  rw [trigger, h]

theorem trigger_of_length_lt {s : State} {depth : Nat} (h : s.params.irqDepth = some depth)
    (hroom : s.irqFifo.length < depth) (t : Tag) :
    trigger t s = .ok { s with irqFifo := s.irqFifo ++ [t] } := by
  simp only [trigger, h, if_pos hroom]

theorem trigger_of_full {s : State} {depth : Nat} (h : s.params.irqDepth = some depth)
    (hfull : depth ≤ s.irqFifo.length) (t : Tag) : trigger t s = .error .fifoFull := by
  simp only [trigger, h, if_neg (Nat.not_lt.2 hfull)]

theorem perform_trigger_eq_done {t : Tag} {s s' : State} (h : trigger t s = .ok s') :
    perform (.trigger t) s = (s', .done) :=
  congrArg (orRefused s) h

theorem perform_trigger_eq_refused {t : Tag} {s : State} {r : Refusal} (h : trigger t s = .error r) :
    perform (.trigger t) s = (s, .refused r) :=
  congrArg (orRefused s) h

theorem triggerAll_cons_of_ok {t : Tag} {s s' : State} (h : trigger t s = .ok s') (ts : List Tag) :
    triggerAll (t :: ts) s = triggerAll ts s' := by
  rw [triggerAll, h]

theorem triggerAll_of_unbounded {s : State} (h : s.params.irqDepth = none) (ts : List Tag) :
    triggerAll ts s = .ok { s with irqFifo := s.irqFifo ++ ts } := by
  induction ts generalizing s with
  | nil => rw [List.append_nil]; rfl
  | cons t ts ih =>
    calc triggerAll (t :: ts) s
      _ = triggerAll ts { s with irqFifo := s.irqFifo ++ [t] } := triggerAll_cons_of_ok (trigger_of_unbounded h t) ts
      _ = .ok { s with irqFifo := s.irqFifo ++ [t] ++ ts } := ih h
      _ = .ok { s with irqFifo := s.irqFifo ++ t :: ts } := by rw [List.append_assoc, List.singleton_append]

/-! ## Handling (R202) -/

theorem handleNext_of_cons {s : State} {t : Tag} {rest : List Tag} (h : s.irqFifo = t :: rest) :
    handleNext s = (some t, { s with irqFifo := rest }) := by
  rw [handleNext, h]

theorem handleNext_of_nil {s : State} (h : s.irqFifo = []) : handleNext s = (none, s) := by
  rw [handleNext, h]

theorem drain_of_irqFifo_eq {s : State} {q : List Tag} (h : s.irqFifo = q) :
    drain q.length s = (q.map some, { s with irqFifo := [] }) := by
  induction q generalizing s with
  | nil => cases s; cases h; rfl
  | cons t rest ih => rw [List.length_cons, drain, handleNext_of_cons h, ih rfl, List.map_cons]

/-- Settles O51, the triggers by induction on the tags given, the handling by induction on the tags held. -/
theorem externalFifoOrder : Obligations.ExternalFifoOrder :=
  ⟨fun _ ts h => triggerAll_of_unbounded h ts,
    fun _ t _ h =>
      ⟨fun hroom => perform_trigger_eq_done (trigger_of_length_lt h hroom t),
        fun hfull => perform_trigger_eq_refused (trigger_of_full h hfull t)⟩,
    fun _ => drain_of_irqFifo_eq rfl, fun _ => handleNext_of_nil⟩

/-! ## Setting the pending flag (R205) -/

theorem raisePending_of_pending {s : State} (h : s.pending = true) : raisePending s = s := by
  rw [raisePending, ← h]

theorem perform_setPending (s : State) : perform .setPending s = (raisePending s, .done) := rfl

theorem perform_setPending_of_pending {s : State} (h : s.pending = true) :
    perform .setPending s = (s, .done) := by
  rw [perform_setPending, raisePending_of_pending h]

/-- Settles O52: the second `setPending` finds the flag set by the first. -/
theorem setPendingIsIdempotent : Obligations.SetPendingIsIdempotent :=
  fun s => ⟨perform_setPending s, perform_setPending_of_pending (raisePending_pending s), perform_setPending_of_pending⟩

end Sys2Proof.Machine

/-! What a step changes, field by field (R21, R59, R142 to R147): the registers by the commit in WB, memory and the
cache by the action in MEM, the rest by EX and the end of the step. -/

namespace Sys2Proof.Machine

/-! ## The parts of a step and what each leaves -/

/-- The commit in WB touches the registers only (R143). -/
theorem serve_WB_frame {s t : State} (h : serve exec .WB s = .next t) :
    t = { s with regs := t.regs, active := some .WB } := by
  obtain ⟨e, r, v, -, -, -, -, rfl⟩ | ⟨-, rfl⟩ := serve_WB_cases h <;> rfl

theorem serve_WB_rest {s t : State} (h : serve exec .WB s = .next t) :
    t.params = s.params ∧ t.slots = s.slots ∧ t.mem = s.mem ∧ t.cache = s.cache ∧ t.hits = s.hits ∧
      t.misses = s.misses := by
  rw [serve_WB_frame h]
  exact ⟨rfl, rfl, rfl, rfl, rfl, rfl⟩

theorem serve_WB_regs_of_commits {s t : State} (h : serve exec .WB s = .next t) {e : Entry} {r : Fin 32} {v : Word}
    (he : s.slots.WB = some e) (hc : commitsResult e.instr = true) (hr : e.instr.operands.rd = some (r.val : Int))
    (hv : e.result = some v) : t.regs = s.regs.set r.val v r.isLt := by
  obtain ⟨e', r', v', he', -, hr', hv', rfl⟩ | ⟨hnone, -⟩ := serve_WB_cases h
  · cases he.symm.trans he'
    cases hv.symm.trans hv'
    have hrr : r = r' := Fin.ext (by simpa [hr] using hr')
    rw [hrr, putRegister_regs, serveSlot_regs]
  · simp [he, hc] at hnone

theorem serve_WB_regs_of_no_commit {s t : State} (h : serve exec .WB s = .next t)
    (hno : ∀ e, s.slots.WB = some e → commitsResult e.instr = false) : t.regs = s.regs := by
  obtain ⟨e, r, v, he, hc, -, -, rfl⟩ | ⟨-, rfl⟩ := serve_WB_cases h
  · simp [hno e he] at hc
  · rfl

/-- No action in MEM writes a register (R144). -/
theorem serve_MEM_regs {s t : State} (h : serve exec .MEM s = .next t) : t.regs = s.regs := by
  obtain ⟨e, o, a, -, -, -, -, rfl⟩ | ⟨e, o, a, r, -, -, -, -, -, rfl⟩ | ⟨-, rfl⟩ := serve_MEM_cases h <;> rfl

theorem serve_MEM_of_ld {s t : State} (h : serve exec .MEM s = .next t) {e : Entry} {o : Operands}
    (he : s.slots.MEM = some e) (hi : e.instr = .ld o) :
    ∃ a : Nat, o.imm = some (a : Int) ∧ t = latchMEM (memRead s a) (recordAccess a (serveSlot .MEM s)) := by
  obtain ⟨e', o', a, he', hi', ha, -, rfl⟩ | ⟨e', o', a, r, he', hi', -⟩ | ⟨hno, -⟩ := serve_MEM_cases h
  · cases he.symm.trans he'
    cases hi.symm.trans hi'
    exact ⟨a, ha, rfl⟩
  · cases he.symm.trans he'
    cases hi.symm.trans hi'
  · obtain ⟨hld, -⟩ := hno e he
    exact absurd (by rw [hi]; rfl) hld

theorem serve_MEM_of_st {s t : State} (h : serve exec .MEM s = .next t) {e : Entry} {o : Operands}
    (he : s.slots.MEM = some e) (hi : e.instr = .st o) :
    ∃ a : Nat, ∃ r : Fin 32, o.imm = some (a : Int) ∧ a < 1024 ∧ o.rs1 = some (r.val : Int) ∧
      t = memWrite a (s.regs.get r) (serveSlot .MEM s) := by
  obtain ⟨e', o', a, he', hi', -⟩ | ⟨e', o', a, r, he', hi', ha, hlt, hr, rfl⟩ | ⟨hno, -⟩ := serve_MEM_cases h
  · cases he.symm.trans he'
    cases hi.symm.trans hi'
  · cases he.symm.trans he'
    cases hi.symm.trans hi'
    exact ⟨a, r, ha, hlt, hr, rfl⟩
  · obtain ⟨-, hst⟩ := hno e he
    exact absurd (by rw [hi]; rfl) hst

/-- Only an ST in MEM writes memory (R112, R113). -/
theorem serve_MEM_mem {s t : State} (h : serve exec .MEM s = .next t)
    (hno : ∀ e, s.slots.MEM = some e → e.instr.opcode ≠ .ST) : t.mem = s.mem := by
  obtain ⟨e, o, a, -, -, -, -, rfl⟩ | ⟨e, o, a, r, he, hi, -⟩ | ⟨-, rfl⟩ := serve_MEM_cases h
  · rfl
  · exact absurd (by rw [hi]; rfl) (hno e he)
  · rfl

/-- Only an LD in MEM queries the cache (R110, R113). -/
theorem serve_MEM_cache {s t : State} (h : serve exec .MEM s = .next t)
    (hno : ∀ e, s.slots.MEM = some e → e.instr.opcode ≠ .LD) :
    t.cache = s.cache ∧ t.hits = s.hits ∧ t.misses = s.misses := by
  obtain ⟨e, o, a, he, hi, -⟩ | ⟨e, o, a, r, -, -, -, -, -, rfl⟩ | ⟨-, rfl⟩ := serve_MEM_cases h
  · exact absurd (by rw [hi]; rfl) (hno e he)
  · exact ⟨rfl, rfl, rfl⟩
  · exact ⟨rfl, rfl, rfl⟩

/-- What EX and the end of a step leave as the WB and MEM parts left it, whether or not EX ends the step. -/
structure KeptAfterMEM (s t : State) : Prop where
  params : t.params = s.params
  regs : t.regs = s.regs
  hits : t.hits = s.hits
  misses : t.misses = s.misses
  mem : t.mem = s.mem
  prog : t.prog = s.prog
  cache : t.cache = s.cache
  irqFifo : t.irqFifo = s.irqFifo
  fault : t.fault = s.fault
  loaded : t.loaded = s.loaded

theorem keptAfterMEM_of_serve_EX {s t : State} (h : serve exec .EX s = .next t) : KeptAfterMEM s t := by
  obtain ⟨e, v, -, -, rfl⟩ | ⟨e, k, -, -, -, rfl⟩ | ⟨e, -, -, rfl⟩ | ⟨-, rfl⟩ := serve_EX_cases h <;>
    constructor <;> rfl

theorem keptAfterMEM_finishStep {s t : State} (K : KeptAfterMEM s t) : KeptAfterMEM s (finishStep t) := by
  obtain ⟨hparams, hregs, hhits, hmisses, -, hmem, hprog, hcache, hfifo, hfault, hloaded⟩ := finishStep_kept t
  exact ⟨hparams.trans K.params, hregs.trans K.regs, hhits.trans K.hits, hmisses.trans K.misses, hmem.trans K.mem,
    hprog.trans K.prog, hcache.trans K.cache, hfifo.trans K.irqFifo, hfault.trans K.fault, hloaded.trans K.loaded⟩

/-- The WB and MEM parts of a step that is not frozen, and what the rest of the step leaves of them (R140). -/
theorem step_parts {s t : State} (hp : s.pending = false) (h : step s = .next t) :
    ∃ s1 s2, serve exec .WB s = .next s1 ∧ serve exec .MEM s1 = .next s2 ∧ KeptBeforeEX s s2 ∧ KeptAfterMEM s2 t := by
  obtain ⟨-, s1, s2, s3, hWB, hMEM, hEX, -, K, rfl⟩ := step_ready_cases hp h
  exact ⟨s1, s2, hWB, hMEM, K, keptAfterMEM_finishStep (keptAfterMEM_of_serve_EX hEX)⟩

/-- A step with the flag set is the frozen cycle (R141). -/
theorem step_of_pending {s t : State} (hp : s.pending = true) (h : step s = .next t) : t = interruptEntry s := by
  obtain ⟨-, -, ⟨-, rfl⟩ | ⟨hclear, -⟩⟩ := step_cases h
  · rfl
  · cases hp.symm.trans hclear

/-! ## What no step changes -/

/-- Settles O26: neither the frozen cycle nor any part of another step touches these fields. -/
theorem stepKeepsProgramFifoAndParameters : Obligations.StepKeepsProgramFifoAndParameters := by
  intro s t h
  cases hp : s.pending with
  | true => rw [step_of_pending hp h]; exact ⟨rfl, rfl, rfl, rfl, rfl⟩
  | false =>
    obtain ⟨s1, s2, -, -, K, K3⟩ := step_parts hp h
    exact ⟨K3.prog.trans K.prog, K3.irqFifo.trans K.irqFifo, K3.params.trans K.params, K3.fault.trans K.fault,
      K3.loaded.trans K.loaded⟩

theorem step_irqFifo {s t : State} (h : step s = .next t) : t.irqFifo = s.irqFifo := by
  obtain ⟨-, hfifo, -⟩ := stepKeepsProgramFifoAndParameters s t h
  exact hfifo

/-! ## The registers (R21, R143) -/

theorem regs_after_step {s1 s2 t : State} (hMEM : serve exec .MEM s1 = .next s2) (K : KeptAfterMEM s2 t) :
    t.regs = s1.regs :=
  K.regs.trans (serve_MEM_regs hMEM)

/-- A register that a step changed is the one that the entry in WB names, and holds its latch (R143). -/
theorem commit_of_changed_register {s t : State} {r : Fin 32} (h : step s = .next t)
    (hne : t.regs.get r ≠ s.regs.get r) :
    s.pending = false ∧ ∃ e, s.slots.WB = some e ∧ commitsResult e.instr = true ∧
      e.instr.operands.rd = some (r.val : Int) ∧ e.result = some (t.regs.get r) := by
  cases hp : s.pending with
  | true => rw [step_of_pending hp h, interruptEntry_regs] at hne; exact absurd rfl hne
  | false =>
    obtain ⟨s1, s2, hWB, hMEM, -, K3⟩ := step_parts hp h
    rw [regs_after_step hMEM K3] at hne ⊢
    obtain ⟨e, r', v, he, hc, hr, hv, rfl⟩ | ⟨-, rfl⟩ := serve_WB_cases hWB
    · by_cases hrr : r = r'
      · subst hrr
        exact ⟨rfl, e, he, hc, hr, by simpa using hv⟩
      · exact absurd (regs_get_set_other hrr _ _) hne
    · exact absurd rfl hne

/-- Settles O23: the MEM and EX parts and the end of the step write no register. -/
theorem registersChangeOnlyInWB : Obligations.RegistersChangeOnlyInWB := by
  refine fun s t r h => ⟨commit_of_changed_register h, fun e v hp he hc hr hv => ?_⟩
  obtain ⟨s1, s2, hWB, hMEM, -, K3⟩ := step_parts hp h
  rw [regs_after_step hMEM K3, serve_WB_regs_of_commits hWB he hc hr hv, regs_get_set_same]

/-! ## Memory (R59, R112) -/

/-- Settles O24: only ST writes memory, and the step's registers are those it read. -/
theorem memoryChangesOnlyByAStoreInMEM : Obligations.MemoryChangesOnlyByAStoreInMEM := by
  intro s t a hwf h hne
  cases hp : s.pending with
  | true => rw [step_of_pending hp h, interruptEntry_mem] at hne; exact absurd rfl hne
  | false =>
    obtain ⟨s1, s2, hWB, hMEM, -, K3⟩ := step_parts hp h
    have hregs := regs_after_step hMEM K3
    obtain ⟨-, hslots, hmem, -⟩ := serve_WB_rest hWB
    rw [K3.mem] at hne ⊢
    obtain ⟨e, o, a', -, -, -, -, rfl⟩ | ⟨e, o, a', r, he, hi, ha, -, hr, rfl⟩ | ⟨-, rfl⟩ := serve_MEM_cases hMEM
    · exact absurd (by rw [← hmem]; rfl) hne
    · rw [memWrite_mem, serveSlot_mem, hmem] at hne ⊢
      by_cases haa : a = a'
      · subst haa
        exact ⟨rfl, e, o, r, hslots ▸ he, hi, ha, hr, by rw [Memory.read_write_same hwf, hregs]⟩
      · exact absurd (Memory.read_write_other haa) hne
    · exact absurd (by rw [← hmem]; rfl) hne

/-! ## The cache counters (R110, R171) -/

/-- An access counts a hit or a miss, never both (R171). -/
theorem recordAccess_counts (a : Nat) (s : State) :
    ((recordAccess a s).hits = s.hits + 1 ∧ (recordAccess a s).misses = s.misses) ∨
      ((recordAccess a s).hits = s.hits ∧ (recordAccess a s).misses = s.misses + 1) := by
  rw [recordAccess_hits, recordAccess_misses]
  split
  · exact .inl ⟨rfl, rfl⟩
  · exact .inr ⟨rfl, rfl⟩

/-- Settles O29: the MEM action of an LD is one access, no other part of a step touches cache or counters. -/
theorem countersCountTheLoads : Obligations.CountersCountTheLoads := by
  intro s t h
  cases hp : s.pending with
  | true => rw [step_of_pending hp h]; simp
  | false =>
    obtain ⟨s1, s2, hWB, hMEM, -, K3⟩ := step_parts hp h
    obtain ⟨-, hslots, -, hcache, hhits, hmisses⟩ := serve_WB_rest hWB
    rw [K3.hits, K3.misses, K3.cache, ← hhits, ← hmisses, ← hcache, ← hslots]
    refine ⟨?_, fun hno => ?_⟩
    · rintro ⟨-, e, o, he, hi⟩
      obtain ⟨a, -, rfl⟩ := serve_MEM_of_ld hMEM he hi
      exact recordAccess_counts a (serveSlot .MEM s1)
    · have hld : ∀ e, s1.slots.MEM = some e → e.instr.opcode ≠ .LD := by
        intro e he hop
        obtain ⟨i, result⟩ := e
        cases i <;> cases hop
        exact hno ⟨rfl, _, _, he, rfl⟩
      obtain ⟨h1, h2, h3⟩ := serve_MEM_cache hMEM hld
      exact ⟨h2, h3, h1⟩

/-! ## What a host operation other than a step can do (R221) -/

theorem perform_loadProgram_cases (p : List Instr) (s : State) :
    (perform (.loadProgram p) s).1 = s ∨
      (p.length ≤ imemLimit s.params ∧ (perform (.loadProgram p) s).1 = State.afterLoad s.params s.irqFifo p) := by
  simp only [perform, loadProgram]
  split
  case isTrue h => exact .inr ⟨h, rfl⟩
  case isFalse => exact .inl rfl

/-- An image is refused whole, or loaded as its records are (R86, R230). -/
theorem loadImage_cases (image : List Code) (s : State) :
    (loadImage image s).1 = s ∨ ∃ p, loadImage image s = perform (.loadProgram p) s := by
  unfold loadImage
  split
  case h_1 p _ => exact .inr ⟨p, rfl⟩
  case h_2 => exact .inl rfl

/-- Every host operation but a step leaves the state, loads a program into it, changes its external FIFO, or raises its
pending flag (R221). -/
theorem perform_cases {op : Operation} (h : op ≠ .step) (s : State) :
    (perform op s).1 = s ∨
      (∃ p, p.length ≤ imemLimit s.params ∧ (perform op s).1 = State.afterLoad s.params s.irqFifo p) ∨
      (∃ q, (perform op s).1 = { s with irqFifo := q }) ∨
      (op = .setPending ∧ (perform op s).1 = raisePending s) := by
  cases op with
  | step => exact absurd rfl h
  | loadProgram p =>
    obtain hkept | hloaded := perform_loadProgram_cases p s
    · exact .inl hkept
    · exact .inr (.inl ⟨p, hloaded⟩)
  | loadImage image =>
    obtain hkept | ⟨p, himage⟩ := loadImage_cases image s
    · exact .inl hkept
    · change (loadImage image s).1 = s ∨ _
      rw [perform, himage]
      obtain hkept | hloaded := perform_loadProgram_cases p s
      · exact .inl hkept
      · exact .inr (.inl ⟨p, hloaded⟩)
  | trigger t =>
    simp only [perform, trigger]
    split
    · split
      · exact .inr (.inr (.inl ⟨_, rfl⟩))
      · exact .inl rfl
    · exact .inr (.inr (.inl ⟨_, rfl⟩))
  | handleNext =>
    simp only [perform, handleNext]
    split
    · exact .inr (.inr (.inl ⟨_, rfl⟩))
    · exact .inl rfl
  | setPending => exact .inr (.inr (.inr ⟨rfl, rfl⟩))
  | _ => exact .inl rfl

/-! ## The pending flag (R206) -/

theorem int_of_opcode {i : Instr} (h : i.opcode = .INT) : ∃ o, i = .int o := by
  cases i <;> cases h
  exact ⟨_, rfl⟩

theorem int_of_pending_raised {s t : State} (h : step s = .next t) (ht : t.pending = true) :
    s.pending = false ∧ ∃ e o, s.slots.EX = some e ∧ e.instr = .int o := by
  cases hp : s.pending with
  | true => rw [step_of_pending hp h] at ht; cases ht
  | false =>
    obtain ⟨-, s1, s2, e, -, -, K, he, ⟨-, k, rfl⟩ | ⟨hop, -⟩⟩ := step_flush_cases (flush_of_raised hp h ht) h
    · cases hp.symm.trans (K.pending.symm.trans ht)
    · obtain ⟨o, hi⟩ := int_of_opcode hop
      exact ⟨rfl, e, o, he, hi⟩

/-- Settles O25: only a flush by INT raises the flag in a step, and of the host's other operations a load clears it. -/
theorem pendingIsRaisedOnlyByIntOrTheHost : Obligations.PendingIsRaisedOnlyByIntOrTheHost := by
  refine ⟨fun s t => int_of_pending_raised, fun op s hstep hset h => ?_⟩
  obtain hs | ⟨p, -, hs⟩ | ⟨q, hs⟩ | ⟨rfl, -⟩ := perform_cases hstep s
  · rwa [hs] at h
  · rw [hs] at h; cases h
  · rwa [hs] at h
  · exact absurd rfl hset

end Sys2Proof.Machine

/-! Non-interference: the external interrupt FIFO (R204) and the cache (R111, R180 (f)) reach nothing else in a step.
Both are one argument about a function of the state that hides the part in question. -/

namespace Sys2Proof.Machine

/-! ## Functions of the state that a step cannot see through -/

/-- `f` hides a part of the state that no step looks at: it keeps every field that decides what a step does, and what
it hides shows outside in no update that a step makes. -/
structure Blind (f : State → State) : Prop where
  params_eq : ∀ s, (f s).params = s.params
  regs_eq : ∀ s, (f s).regs = s.regs
  pc_eq : ∀ s, (f s).pc = s.pc
  pending_eq : ∀ s, (f s).pending = s.pending
  slots_eq : ∀ s, (f s).slots = s.slots
  mem_eq : ∀ s, (f s).mem = s.mem
  fault_eq : ∀ s, (f s).fault = s.fault
  loaded_eq : ∀ s, (f s).loaded = s.loaded
  active_eq : ∀ s, (f s).active = s.active
  idle : ∀ s, f (f s) = f s
  after_serveSlot : ∀ sl s, f (serveSlot sl (f s)) = f (serveSlot sl s)
  after_putRegister : ∀ r v s, f (putRegister r v (f s)) = f (putRegister r v s)
  after_memWrite : ∀ a v s, f (memWrite a v (f s)) = f (memWrite a v s)
  after_load : ∀ a v s, f (latchMEM v (recordAccess a (f s))) = f (latchMEM v (recordAccess a s))
  after_latchEX : ∀ v s, f (latchEX v (f s)) = f (latchEX v s)
  after_transfer : ∀ k s, f (flush (putPc k (f s))) = f (flush (putPc k s))
  after_int : ∀ s, f (flush (raisePending (f s))) = f (flush (raisePending s))
  after_interruptEntry : ∀ s, f (interruptEntry (f s)) = f (interruptEntry s)
  after_stallShift : ∀ s, f (stallShift (f s)) = f (stallShift s)
  after_advanceShift : ∀ s, f (advanceShift (f s)) = f (advanceShift s)

@[simp] theorem mapNext_next (f : State → State) (s : State) : mapNext f (.next s) = .next (f s) := rfl

@[simp] theorem mapNext_fault (f : State → State) (x : Fault) : mapNext f (.fault x) = .fault x := rfl

@[simp] theorem mapNext_refused (f : State → State) (x : Refusal) : mapNext f (.refused x) = .refused x := rfl

theorem mapNext_orFault {α : Type} (f : State → State) (x : Except Fault α) (k : α → Result) :
    mapNext f (orFault x k) = orFault x fun a => mapNext f (k a) := by
  cases x <;> rfl

/-- Two states that look the same get results that look the same from every operation that is blind to `f`. -/
theorem mapNext_congr {f : State → State} {k : State → Result} (hk : ∀ s, mapNext f (k (f s)) = mapNext f (k s))
    {s s' : State} (h : f s = f s') : mapNext f (k s) = mapNext f (k s') := by
  rw [← hk s, h, hk s']

theorem mapNext_andThen_congr {f : State → State} {k : State → Result}
    (hk : ∀ s, mapNext f (k (f s)) = mapNext f (k s)) {r r' : Result} (h : mapNext f r = mapNext f r') :
    mapNext f (andThen r k) = mapNext f (andThen r' k) := by
  cases r <;> cases r' <;> simp only [mapNext_next, mapNext_fault, mapNext_refused, reduceCtorEq] at h
  case next.next s s' => exact mapNext_congr hk (Host.Outcome.next.inj h)
  all_goals cases h; rfl

/-! ## What a stage action reads -/

theorem sourceRegister_congr {s s' : State} (h : s'.regs = s.regs) (op : Opcode) (field : Field) (x : Option Int) :
    sourceRegister op field x s' = sourceRegister op field x s := by
  simp only [sourceRegister, readRegister, h]

theorem secondOperand_congr {s s' : State} (h : s'.regs = s.regs) (op : Opcode) (o : Operands) :
    secondOperand op o s' = secondOperand op o s := by
  simp only [secondOperand, readRegister, h]

theorem resultWB_congr {s s' : State} (h : s'.slots = s.slots) : resultWB s' = resultWB s := by
  simp only [resultWB, h]

theorem hazard_congr {s s' : State} (hs : s'.slots = s.slots) (hp : s'.params = s.params) : hazard s' = hazard s := by
  simp only [hazard, hs, hp]

theorem orFault_writeRegister (i : Int) (v : Word) (s : State) (k : State → Result) :
    orFault (writeRegister i v s) k = orFault (registerNumber i) fun r => k (putRegister r v s) := by
  unfold writeRegister
  cases registerNumber i <;> rfl

/-! ## A stage action does not see what `f` hides -/

section
variable {f : State → State} (hf : Blind f)
include hf

theorem Blind.mapNext_commitResult (op : Opcode) (o : Operands) (s : State) :
    mapNext f (commitResult op o (f s)) = mapNext f (commitResult op o s) := by
  simp only [commitResult, mapNext_orFault, resultWB_congr (hf.slots_eq s), orFault_writeRegister, mapNext_next,
    hf.after_putRegister _ _ s]

theorem Blind.mapNext_arithmeticEX (op : Opcode) (g : Word → Word → Word) (o : Operands) (s : State) :
    mapNext f (arithmeticEX op g o (f s)) = mapNext f (arithmeticEX op g o s) := by
  simp only [arithmeticEX, mapNext_orFault, sourceRegister_congr (hf.regs_eq s), secondOperand_congr (hf.regs_eq s),
    mapNext_next, hf.after_latchEX _ s]

theorem Blind.mapNext_loadMEM (o : Operands) (s : State) : mapNext f (loadMEM o (f s)) = mapNext f (loadMEM o s) := by
  simp only [loadMEM, mapNext_orFault, memRead, hf.mem_eq, mapNext_next, hf.after_load _ _ s]

theorem Blind.mapNext_storeMEM (o : Operands) (s : State) :
    mapNext f (storeMEM o (f s)) = mapNext f (storeMEM o s) := by
  simp only [storeMEM, mapNext_orFault, sourceRegister_congr (hf.regs_eq s), mapNext_next, hf.after_memWrite _ _ s]

theorem Blind.mapNext_setPc_flush (t : Int) (s : State) :
    mapNext f (orFault (setPc t (f s)) fun s' => .next (flush s')) =
      mapNext f (orFault (setPc t s) fun s' => .next (flush s')) := by
  unfold setPc
  split
  · exact congrArg Host.Outcome.next (hf.after_transfer _ s)
  · rfl

theorem Blind.mapNext_branchTo_flush (op : Opcode) (o : Operands) (s : State) :
    mapNext f (orFault (branchTo op o (f s)) fun s' => .next (flush s')) =
      mapNext f (orFault (branchTo op o s) fun s' => .next (flush s')) := by
  unfold branchTo
  rw [hf.pc_eq]
  cases need op .imm o.imm with
  | ok d => exact hf.mapNext_setPc_flush _ s
  | error e => rfl

theorem Blind.mapNext_jumpTo_flush (op : Opcode) (o : Operands) (s : State) :
    mapNext f (orFault (jumpTo op o (f s)) fun s' => .next (flush s')) =
      mapNext f (orFault (jumpTo op o s) fun s' => .next (flush s')) := by
  unfold jumpTo
  cases need op .imm o.imm with
  | ok t => exact hf.mapNext_setPc_flush t s
  | error e => rfl

theorem Blind.mapNext_branchEX (op : Opcode) (cond : Word → Word → Bool) (o : Operands) (s : State) :
    mapNext f (branchEX op cond o (f s)) = mapNext f (branchEX op cond o s) := by
  simp only [branchEX, mapNext_orFault, sourceRegister_congr (hf.regs_eq s)]
  congr; funext a; congr; funext b
  split
  · simpa only [mapNext_orFault] using hf.mapNext_branchTo_flush op o s
  · exact congrArg Host.Outcome.next (hf.idle s)

theorem Blind.mapNext_exec (i : Instr) (s : State) : mapNext f (exec i (f s)) = mapNext f (exec i s) := by
  have hidle : mapNext f (.next (f s)) = mapNext f (.next s) := congrArg Host.Outcome.next (hf.idle s)
  cases i with
  | add o | sub o | mul o =>
    simp only [exec, execAdd, execSub, execMul, arithmetic, hf.active_eq]
    split
    · exact hf.mapNext_arithmeticEX _ _ o s
    · exact hf.mapNext_commitResult _ o s
    all_goals exact hidle
  | ld o =>
    simp only [exec, execLd, hf.active_eq]
    split
    · exact hf.mapNext_loadMEM o s
    · exact hf.mapNext_commitResult .LD o s
    all_goals exact hidle
  | st o =>
    simp only [exec, execSt, hf.active_eq]
    split
    · exact hf.mapNext_storeMEM o s
    all_goals exact hidle
  | beq o | bne o =>
    simp only [exec, execBeq, execBne, hf.active_eq]
    split
    · exact hf.mapNext_branchEX _ _ o s
    all_goals exact hidle
  | jmp o =>
    simp only [exec, execJmp, hf.active_eq]
    split
    · exact hf.mapNext_jumpTo_flush .JMP o s
    all_goals exact hidle
  | int o =>
    simp only [exec, execInt, hf.active_eq]
    split
    · exact congrArg Host.Outcome.next (hf.after_int s)
    all_goals exact hidle

/-! ## Neither does a step -/

theorem Blind.mapNext_serve (sl : Slot) (s : State) :
    mapNext f (serve exec sl (f s)) = mapNext f (serve exec sl s) := by
  unfold serve
  rw [hf.slots_eq]
  cases s.slots.get sl with
  | none => exact congrArg Host.Outcome.next (hf.after_serveSlot sl s)
  | some e => exact mapNext_congr (hf.mapNext_exec e.instr) (hf.after_serveSlot sl s)

theorem Blind.mapNext_stageActions (s : State) :
    mapNext f (stageActions exec (f s)) = mapNext f (stageActions exec s) := by
  refine mapNext_andThen_congr (k := fun s1 => andThen (serve exec .MEM s1) (serve exec .EX)) (fun s1 => ?_)
    (hf.mapNext_serve .WB s)
  exact mapNext_andThen_congr (hf.mapNext_serve .EX) (hf.mapNext_serve .MEM s1)

theorem Blind.after_finishStep (s : State) : f (finishStep (f s)) = f (finishStep s) := by
  unfold finishStep
  rw [hf.active_eq, hazard_congr (hf.slots_eq s) (hf.params_eq s)]
  split
  · exact hf.idle s
  · split
    · exact hf.after_stallShift s
    · exact hf.after_advanceShift s

theorem Blind.mapNext_step (s : State) : mapNext f (step (f s)) = mapNext f (step s) := by
  unfold step clockCycle
  rw [hf.fault_eq, hf.loaded_eq, hf.pending_eq]
  split
  · rfl
  · split
    · split
      · exact congrArg Host.Outcome.next (hf.after_interruptEntry s)
      · exact mapNext_andThen_congr (k := fun s' => .next (finishStep s'))
          (fun s' => congrArg Host.Outcome.next (hf.after_finishStep s')) (hf.mapNext_stageActions s)
    · rfl

end

/-! ## The external FIFO (R204) -/

/-- The state with another content of the external FIFO. -/
def State.withFifo (q : List Tag) (s : State) : State := { s with irqFifo := q }

theorem blind_withFifo (q : List Tag) : Blind (State.withFifo q) := by
  constructor <;> intros <;> rfl

/-- Settles O27: hiding the FIFO behind the content `q` is blind, and a step leaves that content where it stands. -/
theorem externalFifoNeverAffectsAStep : Obligations.ExternalFifoNeverAffectsAStep := by
  intro s q
  change step (s.withFifo q) = mapNext (State.withFifo q) (step s)
  rw [← (blind_withFifo q).mapNext_step s]
  cases h : step (s.withFifo q) with
  | next t =>
    have hq : t.irqFifo = q := step_irqFifo h
    rw [mapNext_next, State.withFifo, ← hq]
  | fault x => rfl
  | refused x => rfl

/-! ## The cache (R111, R180 (f)) -/

theorem blind_withoutCache : Blind State.withoutCache := by
  constructor <;> intros <;> rfl

/-- Settles O28: hiding the cache and its two counters is blind. -/
theorem cacheNeverReachesTheRest : Obligations.CacheNeverReachesTheRest :=
  fun _ _ h => mapNext_congr blind_withoutCache.mapNext_step h

end Sys2Proof.Machine

/-! The invariant of the engine (`State.Inv`): a load establishes it, every step and every other host operation that
leaves no fault keeps it. -/

namespace Sys2Proof.Machine

/-! ## The part of the invariant that does not speak of the slots -/

/-- What the invariant says of everything but the slots; unlike the rest it holds in the middle of a step too. -/
structure State.DataInv (s : State) : Prop where
  geometry : geometryLegal s.params.cacheCapacity s.params.blockSize s.params.assoc = true
  memory : s.mem.wf = true
  cache : cacheWf s.params s.cache = true
  pc : s.pc ≤ 2147483647
  prog : s.prog.length ≤ 2147483647

theorem State.Inv.dataInv {s : State} (h : s.Inv) : s.DataInv :=
  ⟨h.geometry, h.memory, h.cache, h.pc, h.prog⟩

theorem dataInv_serve_WB {s t : State} (h : s.DataInv) (hs : serve exec .WB s = .next t) : t.DataInv := by
  rw [serve_WB_frame hs]
  exact ⟨h.geometry, h.memory, h.cache, h.pc, h.prog⟩

theorem dataInv_serve_MEM {s t : State} (h : s.DataInv) (hs : serve exec .MEM s = .next t) : t.DataInv := by
  obtain ⟨e, o, a, -, -, -, -, rfl⟩ | ⟨e, o, a, r, -, -, -, ha, -, rfl⟩ | ⟨-, rfl⟩ := serve_MEM_cases hs
  · exact ⟨h.geometry, h.memory, cacheWf_access h.cache, h.pc, h.prog⟩
  · exact ⟨h.geometry, Memory.wf_write ha h.memory, h.cache, h.pc, h.prog⟩
  · exact ⟨h.geometry, h.memory, h.cache, h.pc, h.prog⟩

theorem dataInv_serve_EX {s t : State} (h : s.DataInv) (hs : serve exec .EX s = .next t) : t.DataInv := by
  obtain ⟨e, v, -, -, rfl⟩ | ⟨e, k, -, -, hk, rfl⟩ | ⟨e, -, -, rfl⟩ | ⟨-, rfl⟩ := serve_EX_cases hs
  · exact ⟨h.geometry, h.memory, h.cache, h.pc, h.prog⟩
  · exact ⟨h.geometry, h.memory, h.cache, hk, h.prog⟩
  · exact ⟨h.geometry, h.memory, h.cache, h.pc, h.prog⟩
  · exact ⟨h.geometry, h.memory, h.cache, h.pc, h.prog⟩

/-- A fetch stops at the program's end, so it leaves `pc` in its domain (R22, R31, R156). -/
theorem pcAfterFetch_le {s : State} {n : Nat} (hpc : s.pc ≤ n) (hprog : s.prog.length ≤ n) : pcAfterFetch s ≤ n := by
  unfold pcAfterFetch
  split <;> omega

theorem dataInv_finishStep {s : State} (h : s.DataInv) : (finishStep s).DataInv := by
  unfold finishStep
  split
  · exact h
  · split
    · exact ⟨h.geometry, h.memory, h.cache, h.pc, h.prog⟩
    · exact ⟨h.geometry, h.memory, h.cache, pcAfterFetch_le h.pc h.prog, h.prog⟩

theorem dataInv_step {s t : State} (h : s.DataInv) (hs : step s = .next t) : t.DataInv := by
  obtain ⟨-, -, ⟨-, rfl⟩ | ⟨-, s3, hact, rfl⟩⟩ := step_cases hs
  · exact ⟨h.geometry, h.memory, h.cache, h.pc, h.prog⟩
  · obtain ⟨s1, s2, hWB, hMEM, hEX⟩ := stageActions_cases hact
    exact dataInv_finishStep (dataInv_serve_EX (dataInv_serve_MEM (dataInv_serve_WB h hWB) hMEM) hEX)

/-! ## The latches (R29, R147) -/

theorem entryWBWf_withResult {e : Entry} (h : endsInEX e.instr = false) (v : Word) :
    entryWBWf (e.withResult v) = true := by
  simp [entryWBWf, Entry.withResult, h]

/-- An entry that MEM passes on without an action is already in the form of WB: what commits there latched in EX. -/
theorem entryWBWf_of_entryMEMWf {e : Entry} (h : entryMEMWf e = true) (hld : e.instr.opcode ≠ .LD) :
    entryWBWf e = true := by
  obtain ⟨i, result⟩ := e
  cases i with
  | ld o => exact absurd rfl hld
  | add o | sub o | mul o => exact h
  | st o | beq o | bne o => rfl
  | jmp o | int o => exact absurd h Bool.false_ne_true

/-- After the MEM part of a step the entry there is in the form of WB. -/
theorem slotMEM_after_serve_MEM {s t : State} (h : s.slots.MEM.all entryMEMWf = true)
    (hs : serve exec .MEM s = .next t) : t.slots.MEM.all entryWBWf = true := by
  obtain ⟨e, o, a, he, hi, -, -, rfl⟩ | ⟨e, o, a, r, he, hi, -, -, -, rfl⟩ | ⟨hno, rfl⟩ := serve_MEM_cases hs
  · simpa [he] using entryWBWf_withResult (by rw [hi]; rfl) (memRead s a)
  · simp [he, entryWBWf, hi, endsInEX, commitsResult]
  · cases he : s.slots.MEM with
    | none => simp [he]
    | some e =>
      obtain ⟨hld, -⟩ := hno e he
      rw [he, Option.all_some] at h
      simpa [he] using entryWBWf_of_entryMEMWf h hld

/-- After the EX part of a step the entry there, if any is left, is in the form of MEM. -/
theorem slotEX_after_serve_EX {s t : State} (hs : serve exec .EX s = .next t) :
    t.slots.EX.all entryMEMWf = true := by
  obtain ⟨e, v, he, hlat, rfl⟩ | ⟨e, k, -, -, -, rfl⟩ | ⟨e, -, -, rfl⟩ | ⟨hno, rfl⟩ := serve_EX_cases hs
  · obtain ⟨i, result⟩ := e
    cases i <;> simp [he, Entry.withResult, entryMEMWf, endsInEX, latchesInEX] at hlat ⊢
  · rfl
  · rfl
  · cases he : s.slots.EX <;> simp_all [entryMEMWf]

theorem latches_of_stageActions {s t : State} (h : s.slots.MEM.all entryMEMWf = true)
    (hs : stageActions exec s = .next t) (ha : t.active ≠ none) :
    t.slots.EX.all entryMEMWf = true ∧ t.slots.MEM.all entryWBWf = true := by
  obtain ⟨s1, s2, hWB, hMEM, hEX⟩ := stageActions_cases hs
  obtain ⟨-, hslots, -⟩ := serve_WB_rest hWB
  refine ⟨slotEX_after_serve_EX hEX, ?_⟩
  rw [(keptInEX_of_active hEX ha).slotMEM]
  exact slotMEM_after_serve_MEM (hslots ▸ h) hMEM

theorem latches_step {s t : State} (h : s.Inv) (hs : step s = .next t) :
    t.slots.MEM.all entryMEMWf = true ∧ t.slots.WB.all entryWBWf = true := by
  obtain ⟨k, hk⟩ := exists_stepShape hs
  cases k with
  | frozen =>
    cases (step_of_frozen hk).symm.trans hs
    exact ⟨h.slotMEM, h.slotWB⟩
  | flush => rw [slots_of_flush hk hs]; exact ⟨rfl, rfl⟩
  | stall =>
    obtain ⟨s2, s', hact, -, K3, hstep⟩ := step_of_stall hk
    cases hstep.symm.trans hs
    exact latches_of_stageActions h.slotMEM hact (by simp [K3.active])
  | advance =>
    obtain ⟨s2, s', hact, -, K3, hstep⟩ := step_of_advance hk
    cases hstep.symm.trans hs
    exact latches_of_stageActions h.slotMEM hact (by simp [K3.active])

/-- No stage action is under way after a step (R14). -/
theorem step_active {s t : State} (h : step s = .next t) : t.active = none := by
  obtain ⟨-, -, ⟨-, rfl⟩ | ⟨-, s3, -, rfl⟩⟩ := step_cases h
  · rfl
  · unfold finishStep
    split
    · assumption
    · split <;> rfl

/-- Settles O7: the data by the part of the step that changes them, the latches by the shape of the step. -/
theorem stepKeepsTheInvariant : Obligations.StepKeepsTheInvariant := by
  intro s t h hs
  obtain ⟨hgeometry, hmemory, hcache, hpc, hprog⟩ := dataInv_step h.dataInv hs
  obtain ⟨hMEM, hWB⟩ := latches_step h hs
  exact ⟨hgeometry, hmemory, hcache, hpc, hprog, hMEM, hWB, step_active hs⟩

/-! ## The load and the other host operations (R230) -/

theorem inv_afterLoad {params : Params}
    (hlegal : geometryLegal params.cacheCapacity params.blockSize params.assoc = true) (q : List Tag) {p : List Instr}
    (hp : p.length ≤ 2147483647) : (State.afterLoad params q p).Inv :=
  ⟨hlegal, Memory.wf_nil, cacheWf_emptyCache params, Nat.zero_le _, hp, rfl, rfl, rfl⟩

/-- The geometry of the implementation is legal whatever its uninterpreted constants are (R7). -/
theorem geometryLegal_resetParams :
    geometryLegal resetParams.cacheCapacity resetParams.blockSize resetParams.assoc = true := by
  have hpos : 0 < (Config.setsLessOne + 1) * ((Config.blockSizeLessOne + 1) * (Config.assocLessOne + 1)) := by
    positivity
  rw [geometryLegal_iff]
  simp only [resetParams, Config.params]
  refine ⟨by exact_mod_cast hpos, by omega, by omega, ?_⟩
  push_cast
  exact Int.mul_emod_left _ _

/-- Settles O6: the load of the empty program on the legal geometry of the implementation. -/
theorem resetMeetsTheInvariant : Obligations.ResetMeetsTheInvariant :=
  inv_afterLoad geometryLegal_resetParams [] (Nat.zero_le _)

theorem imemLimit_le (p : Params) : imemLimit p ≤ 2147483647 := by
  unfold imemLimit
  split
  · exact Nat.min_le_right _ _
  · exact Nat.le_refl _

/-- Settles O8: a step by O7, a load by the state it gives, the rest touch neither the slots nor the data. -/
theorem hostOperationsKeepTheInvariant : Obligations.HostOperationsKeepTheInvariant := by
  intro op s h hfault
  by_cases hop : op = .step
  · subst hop
    simp only [perform, stepOperation] at hfault ⊢
    cases hs : step s with
    | next t => exact stepKeepsTheInvariant s t h hs
    | fault f => rw [hs] at hfault; cases hfault
    | refused r => exact h
  · obtain hs | ⟨p, hp, hs⟩ | ⟨q, hs⟩ | ⟨-, hs⟩ := perform_cases hop s <;> rw [hs]
    · exact h
    · exact inv_afterLoad h.geometry s.irqFifo (hp.trans (imemLimit_le s.params))
    · exact ⟨h.geometry, h.memory, h.cache, h.pc, h.prog, h.slotMEM, h.slotWB, h.idle⟩
    · exact ⟨h.geometry, h.memory, h.cache, h.pc, h.prog, h.slotMEM, h.slotWB, h.idle⟩

end Sys2Proof.Machine

/-! The stage actions of the instructions (R100 to R132, R143 to R147): what each answers with readable operands, where
it faults and in which order, and what it leaves unchanged. -/

namespace Sys2Proof.Machine

/-! ## The families of instructions -/

theorem latchesInEX_iff {i : Instr} :
    latchesInEX i = true ↔ i.opcode = .ADD ∨ i.opcode = .SUB ∨ i.opcode = .MUL := by
  cases i <;> simp [latchesInEX, Instr.opcode]

theorem commitsResult_iff {i : Instr} :
    commitsResult i = true ↔ i.opcode = .ADD ∨ i.opcode = .SUB ∨ i.opcode = .MUL ∨ i.opcode = .LD := by
  cases i <;> simp [commitsResult, Instr.opcode]

theorem commits_and_no_memory_of_latchesInEX {i : Instr} (h : latchesInEX i = true) :
    commitsResult i = true ∧ i.opcode ≠ .LD ∧ i.opcode ≠ .ST := by
  cases i with
  | add o | sub o | mul o => exact ⟨rfl, by simp [Instr.opcode], by simp [Instr.opcode]⟩
  | _ => cases h

/-- ADD, SUB and MUL are one EX action over three operations (R100 to R102). -/
theorem exec_EX_of_latches {i : Instr} (h : latchesInEX i = true) :
    ∃ f : Word → Word → Word, (∀ a b, arithmeticResult i a b = some (f a b)) ∧
      ∀ s : State, s.active = some .EX → exec i s = arithmeticEX i.opcode f i.operands s := by
  cases i with
  | add o => exact ⟨sum, fun a b => by rw [sum_eq_add]; rfl, fun _ => exec_add_EX⟩
  | sub o => exact ⟨difference, fun a b => by rw [difference_eq_sub]; rfl, fun _ => exec_sub_EX⟩
  | mul o => exact ⟨product, fun a b => by rw [product_eq_mul]; rfl, fun _ => exec_mul_EX⟩
  | _ => cases h

theorem latchesInEX_of_arithmeticResult {i : Instr} {a b v : Word} (h : arithmeticResult i a b = some v) :
    latchesInEX i = true := by
  cases i with
  | add o | sub o | mul o => rfl
  | _ => cases h

/-- BEQ and BNE are one EX action over two conditions (R120, R121). -/
theorem exec_EX_of_branch {i : Instr} (h : i.opcode = .BEQ ∨ i.opcode = .BNE) :
    ∃ cond : Word → Word → Bool, (∀ a b, branchTaken i a b = some (cond a b)) ∧
      ∀ s : State, s.active = some .EX → exec i s = branchEX i.opcode cond i.operands s := by
  cases i with
  | beq o => exact ⟨equalCondition, fun _ _ => rfl, fun _ => exec_beq_EX⟩
  | bne o => exact ⟨differCondition, fun _ _ => congrArg some decide_not, fun _ => exec_bne_EX⟩
  | _ => simp [Instr.opcode] at h

theorem branch_of_branchTaken {i : Instr} {a b : Word} {c : Bool} (h : branchTaken i a b = some c) :
    i.opcode = .BEQ ∨ i.opcode = .BNE := by
  cases i with
  | beq o => exact .inl rfl
  | bne o => exact .inr rfl
  | _ => cases h

/-- The four that commit a result have one WB action (R143). -/
theorem exec_WB_of_commits {i : Instr} (h : commitsResult i = true) {s : State} (hs : s.active = some .WB) :
    exec i s = commitResult i.opcode i.operands s := by
  cases i with
  | add o => exact exec_add_WB hs
  | sub o => exact exec_sub_WB hs
  | mul o => exact exec_mul_WB hs
  | ld o => exact exec_ld_WB hs
  | _ => cases h

/-! ## The dashes of the table of stage actions (R147) -/

theorem exec_idle {s : State} (hs : s.active = none ∨ s.active = some .IF ∨ s.active = some .ID) (i : Instr) :
    exec i s = .next s := by
  obtain hs | hs | hs := hs <;> cases i <;>
    simp only [exec, execAdd, execSub, execMul, execLd, execSt, execBeq, execBne, execJmp, execInt, arithmetic, hs]

theorem exec_EX_of_memory {i : Instr} (hi : i.opcode = .LD ∨ i.opcode = .ST) {s : State} (hs : s.active = some .EX) :
    exec i s = .next s := by
  cases i with
  | ld o | st o => simp only [exec, execLd, execSt, hs]
  | _ => simp [Instr.opcode] at hi

theorem exec_MEM_of_no_memory {i : Instr} (hld : i.opcode ≠ .LD) (hst : i.opcode ≠ .ST) {s : State}
    (hs : s.active = some .MEM) : exec i s = .next s := by
  cases i with
  | ld o => exact absurd rfl hld
  | st o => exact absurd rfl hst
  | _ => simp only [exec, execAdd, execSub, execMul, execBeq, execBne, execJmp, execInt, arithmetic, hs]

theorem exec_WB_of_no_commit {i : Instr} (hi : commitsResult i = false) {s : State} (hs : s.active = some .WB) :
    exec i s = .next s := by
  cases i with
  | add o | sub o | mul o | ld o => cases hi
  | _ => simp only [exec, execSt, execBeq, execBne, execJmp, execInt, hs]

/-- Settles O40: the dashes of IF and ID, of EX, of MEM and of WB. -/
theorem slotsWithoutAnActionDoNothing : Obligations.SlotsWithoutAnActionDoNothing :=
  fun i _ => ⟨fun hs => exec_idle hs i, fun hs hi => exec_EX_of_memory hi hs,
    fun hs hld hst => exec_MEM_of_no_memory hld hst hs, fun hs hi => exec_WB_of_no_commit hi hs⟩

/-- An instruction acts in EX, MEM or WB, or changes nothing (R147). -/
theorem exec_eq_or_slot {i : Instr} {s t : State} (h : exec i s = .next t) :
    t = s ∨ s.active = some .EX ∨ s.active = some .MEM ∨ s.active = some .WB := by
  by_cases hidle : s.active = none ∨ s.active = some .IF ∨ s.active = some .ID
  · rw [exec_idle hidle] at h
    cases h
    exact .inl rfl
  · cases hs : s.active with
    | none => exact absurd (.inl hs) hidle
    | some k => cases k <;> simp_all

/-! ## Operands that cannot be read (R192, R194, R195) -/

theorem registerNumber_of_out {n : Int} (h : outOfRegisters n) : registerNumber n = .error (.registerBounds n) :=
  registerNumber_error (by unfold outOfRegisters at h; omega)

theorem readRegister_of_out {n : Int} (h : outOfRegisters n) (s : State) :
    readRegister s n = .error (.registerBounds n) := by
  rw [readRegister, registerNumber_of_out h]

theorem writeRegister_of_out {n : Int} (h : outOfRegisters n) (v : Word) (s : State) :
    writeRegister n v s = .error (.registerBounds n) := by
  rw [writeRegister, registerNumber_of_out h]

/-- Settles O55: a checked index names a register of the file, which holds what was put there. -/
theorem everyRegisterIsOrdinary : Obligations.EveryRegisterIsOrdinary := by
  refine fun s v => ⟨fun r => ⟨putRegister r v s, writeRegister_val r v s, ?_, fun r' hne => ?_⟩,
    fun n hn => ⟨writeRegister_of_out hn v s, readRegister_of_out hn s⟩⟩
  · rw [readRegister_val, putRegister_regs, regs_get_set_same]
  · rw [readRegister_val, readRegister_val, putRegister_regs, regs_get_set_other hne]

theorem sourceRegister_val (op : Opcode) (field : Field) (r : Fin 32) (s : State) :
    sourceRegister op field (some (r.val : Int)) s = .ok (s.regs.get r) :=
  readRegister_val s r

theorem sourceRegister_none (op : Opcode) (field : Field) (s : State) :
    sourceRegister op field none s = .error (.missingOperand op field) := rfl

theorem sourceRegister_of_out (op : Opcode) (field : Field) {n : Int} (h : outOfRegisters n) (s : State) :
    sourceRegister op field (some n) s = .error (.registerBounds n) :=
  readRegister_of_out h s

theorem secondOperand_of_has {o : Operands} {s : State} {b : Word} (h : hasSecondOperand o s b) (op : Opcode) :
    secondOperand op o s = .ok b :=
  secondOperand_eq_ok.2 h

theorem secondOperand_of_out {o : Operands} {n : Int} (ho : o.rs2 = some n) (h : outOfRegisters n) (op : Opcode)
    (s : State) : secondOperand op o s = .error (.registerBounds n) := by
  simp only [secondOperand, ho, readRegister_of_out h]

theorem secondOperand_of_none {o : Operands} (ho : o.rs2 = none) (himm : o.imm = none) (op : Opcode) (s : State) :
    secondOperand op o s = .error (.missingOperand op .imm) := by
  simp only [secondOperand, ho, himm, need_none]

theorem effectiveAddress_of_none {o : Operands} (ho : o.imm = none) (op : Opcode) :
    effectiveAddress op o = .error (.missingOperand op .imm) := by
  simp only [effectiveAddress, ho, need_none]

theorem effectiveAddress_of_out {o : Operands} {a : Int} (ho : o.imm = some a) (ha : a < 0 ∨ 1024 ≤ a) (op : Opcode) :
    effectiveAddress op o = .error (.memoryBounds a) := by
  simp only [effectiveAddress, ho, need_some, checkAddress_error (show ¬(0 ≤ a ∧ a < 1024) by omega)]

theorem effectiveAddress_val {o : Operands} {a : Fin 1024} (ho : o.imm = some (a.val : Int)) (op : Opcode) :
    effectiveAddress op o = .ok a.val :=
  effectiveAddress_eq_ok.2 ⟨ho, a.isLt⟩

theorem branchTo_of_none {o : Operands} (ho : o.imm = none) (op : Opcode) (s : State) :
    branchTo op o s = .error (.missingOperand op .imm) := by
  simp only [branchTo, ho, need_none]

theorem branchTo_of_out {o : Operands} {d : Int} (ho : o.imm = some d) {s : State}
    (hd : (s.pc : Int) + d < 0 ∨ 2147483647 < (s.pc : Int) + d) (op : Opcode) :
    branchTo op o s = .error (.pcBounds ((s.pc : Int) + d)) := by
  simp only [branchTo, ho, need_some,
    setPc_error (show ¬(0 ≤ (s.pc : Int) + d ∧ (s.pc : Int) + d ≤ 2147483647) by omega)]

/-! ## ADD, SUB and MUL in EX (R100 to R106) -/

theorem exec_arithmetic_EX {i : Instr} {s : State} {r : Fin 32} {b v : Word} (hs : s.active = some .EX)
    (hr : i.operands.rs1 = some (r.val : Int)) (hb : hasSecondOperand i.operands s b)
    (hv : arithmeticResult i (s.regs.get r) b = some v) : exec i s = .next (latchEX v s) := by
  obtain ⟨f, hf, hexec⟩ := exec_EX_of_latches (latchesInEX_of_arithmeticResult hv)
  cases (hf _ _).symm.trans hv
  rw [hexec s hs]
  exact arithmeticEX_eq_next.2 ⟨r, b, hr, secondOperand_of_has hb _, rfl⟩

/-- Settles O30: the three are one action, whose result goes to the latch of the entry in EX. -/
theorem arithmeticLatchesItsResult : Obligations.ArithmeticLatchesItsResult :=
  fun _ _ _ _ _ hs hr hb hv => exec_arithmetic_EX hs hr hb hv

/-- Settles O45: the operations of the word, each with its own law of `toInt` and of `toNat`. -/
theorem arithmeticIsModuloTheWord : Obligations.ArithmeticIsModuloTheWord := by
  intro a b
  rw [sum_eq_add, difference_eq_sub, product_eq_mul]
  refine ⟨BitVec.toInt_add a b, BitVec.toInt_sub, BitVec.toInt_mul a b, BitVec.toNat_add a b, ?_,
    BitVec.toNat_mul a b⟩
  rw [BitVec.toNat_sub, Nat.add_comm]

/-! ## The commit in WB (R143) -/

theorem exec_commit_WB {i : Instr} {s : State} {r : Fin 32} {e : Entry} {v : Word} (hs : s.active = some .WB)
    (hi : commitsResult i = true) (hr : i.operands.rd = some (r.val : Int)) (he : s.slots.WB = some e)
    (hv : e.result = some v) : exec i s = .next (putRegister r v s) := by
  rw [exec_WB_of_commits hi hs]
  exact commitResult_eq_next.2 ⟨r, v, hr, by simp [resultWB, he, hv], rfl⟩

/-- Settles O31: the four are one action in WB. -/
theorem commitWritesTheDestination : Obligations.CommitWritesTheDestination :=
  fun _ _ _ _ _ => exec_commit_WB

theorem arithmeticEX_faults {i : Instr} {s : State} (hs : s.active = some .EX) (hi : latchesInEX i = true) :
    (i.operands.rs1 = none → exec i s = .fault (.missingOperand i.opcode .rs1)) ∧
    (∀ n, i.operands.rs1 = some n → outOfRegisters n → exec i s = .fault (.registerBounds n)) ∧
    (∀ r : Fin 32, i.operands.rs1 = some (r.val : Int) →
      (∀ n, i.operands.rs2 = some n → outOfRegisters n → exec i s = .fault (.registerBounds n)) ∧
      (i.operands.rs2 = none → i.operands.imm = none → exec i s = .fault (.missingOperand i.opcode .imm))) := by
  obtain ⟨f, -, hexec⟩ := exec_EX_of_latches hi
  rw [hexec s hs, arithmeticEX]
  refine ⟨fun h => ?_, fun n h hn => ?_, fun r h => ⟨fun n h2 hn => ?_, fun h2 himm => ?_⟩⟩ <;> rw [h]
  · rfl
  · rw [sourceRegister_of_out _ _ hn, orFault_error]
  · rw [sourceRegister_val, orFault_ok, secondOperand_of_out h2 hn, orFault_error]
  · rw [sourceRegister_val, orFault_ok, secondOperand_of_none h2 himm, orFault_error]

theorem commitResult_faults {i : Instr} {s : State} (hs : s.active = some .WB) (hi : commitsResult i = true) :
    (i.operands.rd = none → exec i s = .fault (.missingOperand i.opcode .rd)) ∧
    (∀ n e v, i.operands.rd = some n → outOfRegisters n → s.slots.WB = some e → e.result = some v →
      exec i s = .fault (.registerBounds n)) := by
  rw [exec_WB_of_commits hi hs, commitResult]
  refine ⟨fun h => ?_, fun n e v h hn he hv => ?_⟩ <;> rw [h]
  · rfl
  · have hlatch : resultWB s = some v := by simp [resultWB, he, hv]
    rw [need_some, orFault_ok, hlatch, need_some, orFault_ok, writeRegister_of_out hn, orFault_error]

/-- Settles O32: the checks in the order of the pseudocode, first in EX, then in WB. -/
theorem arithmeticAndCommitFaults : Obligations.ArithmeticAndCommitFaults :=
  ⟨fun _ _ => arithmeticEX_faults, fun _ _ => commitResult_faults⟩

/-! ## LD and ST in MEM (R110 to R114) -/

theorem exec_ld_MEM_next {o : Operands} {s : State} {a : Fin 1024} (hs : s.active = some .MEM)
    (ho : o.imm = some (a.val : Int)) :
    exec (.ld o) s = .next (latchMEM (memRead s a.val) (recordAccess a.val s)) := by
  rw [exec_ld_MEM hs]
  exact loadMEM_eq_next.2 ⟨a.val, ho, a.isLt, rfl⟩

/-- Settles O33: the access is recorded and the word at the address latched. -/
theorem loadReadsMemory : Obligations.LoadReadsMemory :=
  fun _ _ _ => exec_ld_MEM_next

theorem exec_st_MEM_next {o : Operands} {s : State} {a : Fin 1024} {r : Fin 32} (hs : s.active = some .MEM)
    (ho : o.imm = some (a.val : Int)) (hr : o.rs1 = some (r.val : Int)) :
    exec (.st o) s = .next (memWrite a.val (s.regs.get r) s) := by
  rw [exec_st_MEM hs]
  exact storeMEM_eq_next.2 ⟨a.val, r, ho, a.isLt, hr, rfl⟩

/-- Settles O56, from the laws of memory. -/
theorem memoryReadAfterWrite : Obligations.MemoryReadAfterWrite :=
  fun _ _ _ hwf ha => ⟨Memory.wf_write ha hwf, Memory.read_write_same hwf, fun _ hne => Memory.read_write_other hne⟩

/-- Settles O34: the memory is the one that the write of the register's value leaves. -/
theorem storeWritesMemory : Obligations.StoreWritesMemory :=
  fun _ s a r hs hwf ho hr =>
    ⟨s.mem.write a.val (s.regs.get r), exec_st_MEM_next hs ho hr,
      memoryReadAfterWrite s.mem a.val (s.regs.get r) hwf a.isLt⟩

/-- Settles O35: both check the address before anything else. -/
theorem loadAndStoreFaults : Obligations.LoadAndStoreFaults := by
  intro i s hs hi
  cases i with
  | ld o =>
    simp only [Instr.operands, Instr.opcode]
    rw [exec_ld_MEM hs, loadMEM]
    refine ⟨fun ho => ?_, fun a ho ha => ?_, fun _ _ hop => by cases hop⟩
    · rw [effectiveAddress_of_none ho, orFault_error]
    · rw [effectiveAddress_of_out ho ha, orFault_error]
  | st o =>
    simp only [Instr.operands, Instr.opcode]
    rw [exec_st_MEM hs, storeMEM]
    refine ⟨fun ho => ?_, fun a ho ha => ?_, fun a ho _ => ?_⟩
    · rw [effectiveAddress_of_none ho, orFault_error]
    · rw [effectiveAddress_of_out ho ha, orFault_error]
    · rw [effectiveAddress_val ho, orFault_ok]
      refine ⟨fun h => ?_, fun n h hn => ?_⟩ <;> rw [h]
      · rw [sourceRegister_none, orFault_error]
      · rw [sourceRegister_of_out _ _ hn, orFault_error]
  | _ => simp [Instr.opcode] at hi

/-! ## BEQ and BNE in EX (R120, R121) -/

/-- What the EX action of a branch can do, told by the condition. -/
theorem exec_branch_EX_cases {i : Instr} {s t : State} {r1 r2 : Fin 32} {c : Bool} (hs : s.active = some .EX)
    (h1 : i.operands.rs1 = some (r1.val : Int)) (h2 : i.operands.rs2 = some (r2.val : Int))
    (hc : branchTaken i (s.regs.get r1) (s.regs.get r2) = some c) (h : exec i s = .next t) :
    (c = false ∧ t = s) ∨ (c = true ∧ ∃ d : Int, ∃ k : Nat, i.operands.imm = some d ∧
      (s.pc : Int) + d = (k : Int) ∧ k ≤ 2147483647 ∧ t = flush (putPc k s)) := by
  obtain ⟨cond, hcond, hexec⟩ := exec_EX_of_branch (branch_of_branchTaken hc)
  rw [hexec s hs, branchEX_eq_next] at h
  obtain ⟨q1, q2, hq1, hq2, h⟩ := h
  have e1 : r1 = q1 := Fin.ext (by simpa [h1] using hq1)
  have e2 : r2 = q2 := Fin.ext (by simpa [h2] using hq2)
  subst e1 e2
  rw [hcond, Option.some.injEq] at hc
  rwa [hc] at h

theorem exec_branch_EX_taken {i : Instr} {s : State} {r1 r2 : Fin 32} {d : Int} {k : Nat} (hs : s.active = some .EX)
    (h1 : i.operands.rs1 = some (r1.val : Int)) (h2 : i.operands.rs2 = some (r2.val : Int))
    (hc : branchTaken i (s.regs.get r1) (s.regs.get r2) = some true) (hd : i.operands.imm = some d)
    (hk : (s.pc : Int) + d = (k : Int)) (hle : k ≤ 2147483647) : exec i s = .next (flush (putPc k s)) := by
  obtain ⟨cond, hcond, hexec⟩ := exec_EX_of_branch (branch_of_branchTaken hc)
  rw [hcond, Option.some.injEq] at hc
  rw [hexec s hs, branchEX_eq_next]
  exact ⟨r1, r2, h1, h2, .inr ⟨hc, d, k, hd, hk, hle, rfl⟩⟩

theorem exec_branch_EX_not_taken {i : Instr} {s : State} {r1 r2 : Fin 32} (hs : s.active = some .EX)
    (h1 : i.operands.rs1 = some (r1.val : Int)) (h2 : i.operands.rs2 = some (r2.val : Int))
    (hc : branchTaken i (s.regs.get r1) (s.regs.get r2) = some false) : exec i s = .next s := by
  obtain ⟨cond, hcond, hexec⟩ := exec_EX_of_branch (branch_of_branchTaken hc)
  rw [hcond, Option.some.injEq] at hc
  rw [hexec s hs, branchEX_eq_next]
  exact ⟨r1, r2, h1, h2, .inl ⟨hc, rfl⟩⟩

/-- Settles O36: the flush at the new `pc`, or the state as it was. -/
theorem branchesTransferOrFallThrough : Obligations.BranchesTransferOrFallThrough :=
  fun _ _ _ _ hs h1 h2 => ⟨fun _ _ => exec_branch_EX_taken hs h1 h2, exec_branch_EX_not_taken hs h1 h2⟩

/-- Settles O37: `rs1`, then `rs2`, then, if taken, the target. -/
theorem branchFaults : Obligations.BranchFaults := by
  intro i s hs hi
  obtain ⟨cond, hcond, hexec⟩ := exec_EX_of_branch hi
  rw [hexec s hs, branchEX]
  refine ⟨fun h1 => ?_, fun n h1 hn => ?_, fun r1 h1 => ⟨fun h2 => ?_, fun n h2 hn => ?_, fun r2 h2 hc => ?_⟩⟩ <;>
    rw [h1]
  · rw [sourceRegister_none, orFault_error]
  · rw [sourceRegister_of_out _ _ hn, orFault_error]
  · rw [sourceRegister_val, orFault_ok, h2, sourceRegister_none, orFault_error]
  · rw [sourceRegister_val, orFault_ok, h2, sourceRegister_of_out _ _ hn, orFault_error]
  · rw [hcond, Option.some.injEq] at hc
    rw [sourceRegister_val, orFault_ok, h2, sourceRegister_val, orFault_ok, if_pos hc]
    refine ⟨fun himm => ?_, fun d himm hd => ?_⟩
    · rw [branchTo_of_none himm, orFault_error]
    · rw [branchTo_of_out himm hd, orFault_error]

/-! ## What each family leaves unchanged -/

theorem regs_get_putRegister {o : Option Int} {r r' : Fin 32} (hr : o = some (r.val : Int))
    (hne : o ≠ some (r'.val : Int)) (v : Word) (s : State) : (putRegister r v s).regs.get r' = s.regs.get r' := by
  refine regs_get_set_other (fun e => hne ?_) s.regs v
  rw [e, hr]

/-- Settles O41, slot by slot. -/
theorem arithmeticFrame : Obligations.ArithmeticFrame := by
  intro i s t hi h
  obtain ⟨hcommits, hld, hst⟩ := commits_and_no_memory_of_latchesInEX hi
  obtain rfl | hs | hs | hs := exec_eq_or_slot h
  · exact ⟨fun _ _ => rfl, fun _ => rfl, rfl, rfl, fun _ => rfl⟩
  · obtain ⟨f, -, hexec⟩ := exec_EX_of_latches hi
    rw [hexec s hs, arithmeticEX_eq_next] at h
    obtain ⟨r, b, -, -, rfl⟩ := h
    refine ⟨fun _ _ => rfl, fun _ => rfl, rfl, ?_, fun hne => absurd hs hne⟩
    rw [latchEX_slots, Option.map_map]
    rfl
  · rw [exec_MEM_of_no_memory hld hst hs] at h
    cases h
    exact ⟨fun _ _ => rfl, fun _ => rfl, rfl, rfl, fun _ => rfl⟩
  · rw [exec_WB_of_commits hcommits hs, commitResult_eq_next] at h
    obtain ⟨r, v, hr, -, rfl⟩ := h
    exact ⟨fun r' hne => regs_get_putRegister hr (hne.resolve_right fun hwb => hwb hs) v s, fun _ => rfl, rfl, rfl,
      fun _ => rfl⟩

/-- Settles O42, slot by slot. -/
theorem loadFrame : Obligations.LoadFrame := by
  intro o s t h
  obtain rfl | hs | hs | hs := exec_eq_or_slot h
  · exact ⟨fun _ _ => rfl, fun _ => rfl, rfl, rfl, fun _ => ⟨rfl, rfl, rfl, rfl⟩⟩
  · rw [exec_EX_of_memory (.inl rfl) hs] at h
    cases h
    exact ⟨fun _ _ => rfl, fun _ => rfl, rfl, rfl, fun _ => ⟨rfl, rfl, rfl, rfl⟩⟩
  · rw [exec_ld_MEM hs, loadMEM_eq_next] at h
    obtain ⟨a, -, -, rfl⟩ := h
    refine ⟨fun _ _ => rfl, fun _ => rfl, rfl, ?_, fun hne => absurd hs hne⟩
    rw [latchMEM_slots, Option.map_map]
    rfl
  · rw [exec_ld_WB hs, commitResult_eq_next] at h
    obtain ⟨r, v, hr, -, rfl⟩ := h
    exact ⟨fun r' hne => regs_get_putRegister hr (hne.resolve_right fun hwb => hwb hs) v s, fun _ => rfl, rfl, rfl,
      fun _ => ⟨rfl, rfl, rfl, rfl⟩⟩

/-- Settles O43, slot by slot. -/
theorem storeFrame : Obligations.StoreFrame := by
  intro o s t h
  obtain rfl | hs | hs | hs := exec_eq_or_slot h
  · exact ⟨rfl, fun _ _ _ _ => rfl, fun _ => rfl⟩
  · rw [exec_EX_of_memory (.inr rfl) hs] at h
    cases h
    exact ⟨rfl, fun _ _ _ _ => rfl, fun _ => rfl⟩
  · rw [exec_st_MEM hs, storeMEM_eq_next] at h
    obtain ⟨a, r, ho, hlt, -, rfl⟩ := h
    refine ⟨rfl, fun a' ha' b hb => Memory.read_write_other ?_, fun hne => absurd hs hne⟩
    cases (effectiveAddress_eq_ok.2 ⟨ho, hlt⟩).symm.trans ha'
    exact hb
  · rw [exec_WB_of_no_commit rfl hs] at h
    cases h
    exact ⟨rfl, fun _ _ _ _ => rfl, fun _ => rfl⟩

/-- The four control transfers change nothing outside EX, and there they fall through or flush. -/
theorem exec_transfer_cases {i : Instr} {s t : State}
    (hop : i.opcode = .BEQ ∨ i.opcode = .BNE ∨ i.opcode = .JMP ∨ i.opcode = .INT) (h : exec i s = .next t) :
    t = s ∨ (s.active = some .EX ∧
      (((i.opcode = .BEQ ∨ i.opcode = .BNE ∨ i.opcode = .JMP) ∧ ∃ k, t = flush (putPc k s)) ∨
        (i.opcode = .INT ∧ t = flush (raisePending s)))) := by
  obtain heq | hs | hs | hs := exec_eq_or_slot h
  · exact .inl heq
  · obtain ⟨hlat, -⟩ | ⟨hbranch, k, -, heq⟩ | ⟨hint, heq⟩ | ⟨-, -, heq⟩ := exec_EX_cases hs h
    · obtain h' | h' | h' := latchesInEX_iff.1 hlat <;> simp [h'] at hop
    · exact .inr ⟨hs, .inl ⟨hbranch, k, heq⟩⟩
    · exact .inr ⟨hs, .inr ⟨hint, heq⟩⟩
    · exact .inl heq
  · rw [exec_MEM_of_no_memory (by rintro h'; simp [h'] at hop) (by rintro h'; simp [h'] at hop) hs] at h
    exact .inl (Host.Outcome.next.inj h).symm
  · have hcommits : commitsResult i = false := by
      rw [Bool.eq_false_iff, ne_eq, commitsResult_iff]
      rintro (h' | h' | h' | h') <;> simp [h'] at hop
    rw [exec_WB_of_no_commit hcommits hs] at h
    exact .inl (Host.Outcome.next.inj h).symm

/-- Settles O44: the two flushes, at another `pc` or with the flag raised, or nothing. -/
theorem controlTransferFrame : Obligations.ControlTransferFrame := by
  intro i s t hop h
  obtain rfl | ⟨hs, ⟨hbranch, k, rfl⟩ | ⟨hint, rfl⟩⟩ := exec_transfer_cases hop h
  · exact ⟨fun _ => rfl, fun _ => rfl, .inl rfl, fun _ => rfl, fun _ => rfl⟩
  · exact ⟨fun _ => rfl, fun _ => rfl, .inr ⟨hs, rfl⟩, fun _ => rfl, fun hint => by simp [hint] at hbranch⟩
  · exact ⟨fun _ => rfl, fun _ => rfl, .inr ⟨hs, rfl⟩, fun hne => absurd hint hne, fun _ => rfl⟩

end Sys2Proof.Machine

/-! The value of `pc` seen by a branch (R125): an entry fetched from index `k` stands in IF, ID and EX while `pc` is
one, two and three ahead of `k`, or at the program's end. -/

namespace Sys2Proof.Machine

/-! ## One slot -/

theorem fetchedAhead_none (s : State) (n : Nat) : fetchedAhead s n none := fun _ h => by cases h

theorem fetchedAhead_service (s : State) (n : Nat) (result : Option Word) :
    fetchedAhead s n (some ⟨serviceInstruction s.params, result⟩) := by
  intro e he
  cases he
  exact .inl rfl

/-- The relation speaks of `pc`, the program and the parameters only. -/
theorem fetchedAhead_of_kept {s t : State} {n : Nat} {slot : Option Entry} (h : fetchedAhead s n slot)
    (hparams : t.params = s.params) (hprog : t.prog = s.prog) (hpc : t.pc = s.pc) : fetchedAhead t n slot := by
  unfold fetchedAhead
  rwa [hparams, hprog, hpc]

/-- A fetch takes `pc` one further ahead of every entry, up to the program's end (R156). -/
theorem fetchedAhead_succ {s t : State} {n : Nat} {slot : Option Entry} (h : fetchedAhead s n slot)
    (hparams : t.params = s.params) (hprog : t.prog = s.prog) (hpc : t.pc = pcAfterFetch s) :
    fetchedAhead t (n + 1) slot := by
  intro e he
  rw [hparams, hprog, hpc]
  refine (h e he).imp_right ?_
  rintro ⟨k, hk, hat⟩
  refine ⟨k, hk, ?_⟩
  unfold pcAfterFetch
  split <;> omega

theorem fetchedAhead_fetchEntry {s t : State} (hprog : t.prog = s.prog) (hpc : t.pc = pcAfterFetch s) :
    fetchedAhead t 1 (fetchEntry s) := by
  intro e he
  obtain ⟨i, hi, rfl⟩ := Option.map_eq_some_iff.1 he
  obtain ⟨hlt, -⟩ := List.getElem?_eq_some_iff.1 hi
  obtain ⟨-, hnext⟩ := fetch_of_getElem? hi
  refine .inr ⟨s.pc, hprog ▸ hi, ?_⟩
  rw [hpc, hnext, hprog]
  omega

/-! ## The invariant -/

theorem fetchTracked_of_empty {s : State} (h : s.slots = Slots.empty) : s.fetchTracked := by
  unfold State.fetchTracked
  rw [h]
  exact ⟨fetchedAhead_none s 1, fetchedAhead_none s 2, fetchedAhead_none s 3⟩

theorem fetchTracked_step {s t : State} (h : s.fetchTracked) (hs : step s = .next t) : t.fetchTracked := by
  obtain ⟨hIF, hID, hEX⟩ := h
  obtain ⟨hprog, -, hparams, -, -⟩ := stepKeepsProgramFifoAndParameters s t hs
  obtain ⟨k, hk⟩ := exists_stepShape hs
  cases k with
  | frozen =>
    cases (step_of_frozen hk).symm.trans hs
    exact ⟨fetchedAhead_service _ 1 none, hID, hEX⟩
  | flush => exact fetchTracked_of_empty (slots_of_flush hk hs)
  | stall =>
    obtain ⟨s2, s', -, K2, K3, hstep⟩ := step_of_stall hk
    cases hstep.symm.trans hs
    have hpc : s'.pc = s.pc := K3.pc.trans K2.pc
    refine ⟨fetchedAhead_of_kept ?_ hparams hprog hpc, fetchedAhead_of_kept ?_ hparams hprog hpc,
      fetchedAhead_none _ 3⟩
    · rwa [stallShift_slots, K3.slotIF, K2.slotIF]
    · rwa [stallShift_slots, K3.slotID, K2.slotID]
  | advance =>
    obtain ⟨s2, s', -, K2, K3, hstep⟩ := step_of_advance hk
    cases hstep.symm.trans hs
    rw [advanceShift_of_kept K2 K3] at hprog hparams ⊢
    exact ⟨fetchedAhead_fetchEntry hprog rfl, fetchedAhead_succ hIF hparams hprog rfl,
      fetchedAhead_succ hID hparams hprog rfl⟩

/-! ## What a transfer makes of it -/

/-- A taken branch adds its displacement to the `pc` that the step began with (R120). -/
theorem pc_of_branch_flush {s t : State} {e : Entry} {d : Int} (h : stepShape s = some .flush)
    (hs : step s = .next t) (he : s.slots.EX = some e) (hop : e.instr.opcode = .BEQ ∨ e.instr.opcode = .BNE)
    (hd : e.instr.operands.imm = some d) : (t.pc : Int) = (s.pc : Int) + d := by
  obtain ⟨-, s3, hact, hended, hstep⟩ := step_of_flush h
  cases hstep.symm.trans hs
  obtain ⟨s1, s2, hWB, hMEM, hEX⟩ := stageActions_cases hact
  have K := serve_WB_MEM_kept hWB hMEM
  have hslot : s2.slots.get .EX = some e := K.slotEX.trans he
  obtain ⟨cond, -, hexec⟩ := exec_EX_of_branch hop
  rw [serve_of_occupied hslot, hexec _ (serveSlot_active .EX s2), branchEX_eq_next] at hEX
  obtain ⟨-, -, -, -, ⟨-, rfl⟩ | ⟨-, d', k, hd', hk, -, rfl⟩⟩ := hEX
  · cases hended
  · cases hd.symm.trans hd'
    rw [flush_pc, putPc_pc, ← hk, serveSlot_pc, K.pc]

theorem pc_of_int_flush {s t : State} {e : Entry} (h : stepShape s = some .flush) (hs : step s = .next t)
    (he : s.slots.EX = some e) (hop : e.instr.opcode = .INT) : t.pc = s.pc := by
  obtain ⟨-, s1, s2, e', -, -, K, he', ⟨hop', -⟩ | ⟨-, rfl⟩⟩ := step_flush_cases h hs
  · cases he.symm.trans he'
    simp [hop] at hop'
  · exact K.pc

/-- The entry in EX, if it is not the service instruction, was fetched three ahead of `pc` (R125). -/
theorem fetched_of_tracked_EX {s : State} {e : Entry} (h : s.fetchTracked) (he : s.slots.EX = some e)
    (hop : e.instr.opcode ≠ .LD) : ∃ k : Nat, s.prog[k]? = some e.instr ∧ s.pc = min (k + 3) s.prog.length := by
  obtain ⟨-, -, hEX⟩ := h
  refine (hEX e he).resolve_left fun hsvc => hop ?_
  rw [hsvc]
  rfl

/-- Settles O22: the invariant slot by slot, then the `pc` that the flush adds to or keeps. -/
theorem pcSeenInEXIsThreeAhead : Obligations.PcSeenInEXIsThreeAhead := by
  refine ⟨fun p s t h => ?_, fun s t => fetchTracked_step, fun s h => h, fun s t e h hflush hs he => ⟨?_, ?_⟩⟩
  · rw [loadProgram_eq_ok h]
    exact fetchTracked_of_empty rfl
  · intro d hop hd
    obtain ⟨k, hk, hpc⟩ := fetched_of_tracked_EX h he (by obtain hop | hop := hop <;> simp [hop])
    exact ⟨k, hk, by rw [pc_of_branch_flush hflush hs he hop hd, hpc]⟩
  · intro hop
    obtain ⟨k, hk, hpc⟩ := fetched_of_tracked_EX h he (by simp [hop])
    exact ⟨k, hk, (pc_of_int_flush hflush hs he hop).trans hpc⟩

end Sys2Proof.Machine

/-! The steps of the pipeline: when a step is refused (R163), the order of the stage actions (R140), the step after a
stall (R151 to R153), the register file an instruction in EX sees (R104, R127, R143), what a transfer leaves of the
instruction ahead of it (R123), and the sticky fault (R190, R191). -/

namespace Sys2Proof.Machine

/-! ## Refusal (R163) -/

theorem step_of_fault {s : State} {code : FaultCode} (h : s.fault = some code) : step s = .refused (.faulted code) := by
  simp only [step, clockCycle, h]

theorem step_of_unloaded {s : State} (hf : s.fault = none) (hl : s.loaded = false) : step s = .refused .noProgram := by
  simp [step, clockCycle, hf, hl]

theorem andThen_ne_refused {r : Result} {k : State → Result} {x : Refusal} (hr : r ≠ .refused x)
    (hk : ∀ s, k s ≠ .refused x) : andThen r k ≠ .refused x := by
  cases r with
  | next s => exact hk s
  | fault f => simp
  | refused y => exact hr

theorem serve_ne_refused (sl : Slot) (s : State) (x : Refusal) : serve exec sl s ≠ .refused x := by
  unfold serve
  split
  · exact exec_ne_refused _ _ x
  · simp

theorem step_ne_refused {s : State} (hf : s.fault = none) (hl : s.loaded = true) (x : Refusal) :
    step s ≠ .refused x := by
  cases hp : s.pending with
  | true => rw [step_frozen hf hl hp]; simp
  | false =>
    rw [step_ready ⟨hf, hl, hp⟩]
    refine andThen_ne_refused (andThen_ne_refused (serve_ne_refused .WB s x) fun s1 => ?_) fun _ => by simp
    exact andThen_ne_refused (serve_ne_refused .MEM s1 x) fun s2 => serve_ne_refused .EX s2 x

theorem step_refused_iff {s : State} : (∃ x, step s = .refused x) ↔ s.fault ≠ none ∨ s.loaded = false := by
  cases hf : s.fault with
  | some code => simp [step_of_fault hf]
  | none =>
    cases hl : s.loaded with
    | false => simp [step_of_unloaded hf hl]
    | true => simp [step_ne_refused hf hl]

/-- Settles O9: no stage action is ever refused, so only the two preconditions are. -/
theorem stepIsRefusedExactlyWhenFaultedOrUnloaded : Obligations.StepIsRefusedExactlyWhenFaultedOrUnloaded :=
  fun s => ⟨step_refused_iff, fun x h => by rw [perform, stepOperation, h]⟩

/-! ## The order of the stage actions (R140) -/

theorem serve_eq_next {sl : Slot} {s t : State}
    (hsome : ∀ e, s.slots.get sl = some e → exec e.instr (serveSlot sl s) = .next t)
    (hnone : s.slots.get sl = none → t = serveSlot sl s) : serve exec sl s = .next t := by
  cases h : s.slots.get sl with
  | some e => rw [serve_of_occupied h, hsome e h]
  | none => rw [serve_of_empty h, hnone h]

theorem step_of_serves {s s1 s2 s3 : State} (hr : s.ready) (hWB : serve exec .WB s = .next s1)
    (hMEM : serve exec .MEM s1 = .next s2) (hEX : serve exec .EX s2 = .next s3) :
    step s = .next (finishStep s3) :=
  step_of_stageActions hr (by rw [stageActions, hWB, andThen_next, hMEM, andThen_next, hEX])

theorem finishStep_eq (s : State) :
    finishStep s = if s.active = none then s else if hazard s then stallShift s else advanceShift s := by
  unfold finishStep
  cases s.active <;> simp

/-- Settles O12: a served slot runs `exec` on its entry, or nothing if it is empty. -/
theorem stepRunsTheStageActions : Obligations.StepRunsTheStageActions := by
  intro s s1 s2 s3 hr hWB hWB' hMEM hMEM' hEX hEX'
  rw [← finishStep_eq]
  exact step_of_serves hr (serve_eq_next hWB hWB') (serve_eq_next hMEM hMEM') (serve_eq_next hEX hEX')

/-- A stall and an advance both take EX to MEM and MEM to WB (R151, R155). -/
theorem finishStep_moves {s : State} (h : s.active ≠ none) :
    (finishStep s).slots.MEM = s.slots.EX ∧ (finishStep s).slots.WB = s.slots.MEM := by
  rw [finishStep_eq, if_neg h]
  split <;> exact ⟨rfl, rfl⟩

theorem finishStep_latchEX_MEM {s : State} {x : Entry} (hx : s.slots.EX = some x) (w : Word) :
    (finishStep (latchEX w (serveSlot .EX s))).slots.MEM = some ⟨x.instr, some w⟩ := by
  obtain ⟨hmoved, -⟩ := finishStep_moves (s := latchEX w (serveSlot .EX s)) (by simp)
  rw [hmoved, latchEX_slots, serveSlot_slots, hx]
  rfl

/-! ## The step after a stall (R151, R153) -/

/-- With EX empty nothing ends the step and there is no hazard. -/
theorem stepShape_of_EX_empty {s t : State} (hp : s.pending = false) (hEX : s.slots.EX = none)
    (h : step s = .next t) : stepShape s = some .advance := by
  obtain ⟨hr, s1, s2, s3, hWB, hMEM, hserve, hact, K, -⟩ := step_ready_cases hp h
  have hempty : s2.slots.get .EX = none := K.slotEX.trans hEX
  rw [serve_of_empty hempty] at hserve
  cases hserve
  have hclear : hazard s = false := by
    rw [Bool.eq_false_iff, ne_eq, hazard_iff]
    rintro ⟨d, x, -, hx, -⟩
    cases hEX.symm.trans hx
  rw [stepShape_of_active hr hact (by simp), hclear]
  rfl

/-- Settles O16: the stall leaves EX empty, so that nothing can end or stall the next step. -/
theorem stallIsFollowedByAnAdvance : Obligations.StallIsFollowedByAnAdvance := by
  intro s t u h hst htu
  obtain ⟨s2, s', hact, K2, K3, hstep⟩ := step_of_stall h
  cases hstep.symm.trans hst
  have hpending : (stallShift s').pending = false := by
    obtain ⟨hk, -⟩ | ⟨⟨-, -, hp⟩, -⟩ := stepShape_cases h
    · cases hk
    · exact K3.pending.trans (K2.pending.trans hp)
  have hshape := stepShape_of_EX_empty hpending rfl htu
  obtain ⟨u2, u', -, L2, L3, hstep'⟩ := step_of_advance hshape
  cases hstep'.symm.trans htu
  refine ⟨rfl, hshape, ?_, ?_⟩
  · rw [advanceShift_slots, L3.slotID, L2.slotID, stallShift_slots, K3.slotID, K2.slotID]
  · rw [advanceShift_slots, L3.slotMEM, L2.slotMEM, stallShift_slots, K3.slotEX, K2.slotEX]

/-! ## The register file that EX reads (R104, R127, R143) -/

/-- Settles O17: the commit runs first, and the EX action reads the file it leaves. -/
theorem commitIsSeenInTheSameStep : Obligations.CommitIsSeenInTheSameStep := by
  intro s p x d c b v w hr hWB hp hd hv hMEM hEX hc hb hw
  have h1 : serve exec .WB s = .next (putRegister d v (serveSlot .WB s)) :=
    (serve_of_occupied (sl := .WB) hWB).trans (exec_commit_WB (serveSlot_active .WB s) hp hd hWB hv)
  have h2 : serve exec .MEM (putRegister d v (serveSlot .WB s)) =
      .next (serveSlot .MEM (putRegister d v (serveSlot .WB s))) := serve_of_empty hMEM
  have hread : (s.regs.set d.val v d.isLt).get c = if c = d then v else s.regs.get c := by
    split
    case isTrue hcd => rw [hcd, regs_get_set_same]
    case isFalse hcd => rw [regs_get_set_other hcd]
  have hEX2 : (serveSlot .MEM (putRegister d v (serveSlot .WB s))).slots.EX = some x := hEX
  have h3 : serve exec .EX (serveSlot .MEM (putRegister d v (serveSlot .WB s))) =
      .next (latchEX w (serveSlot .EX (serveSlot .MEM (putRegister d v (serveSlot .WB s))))) :=
    (serve_of_occupied (sl := .EX) hEX2).trans (exec_arithmetic_EX (serveSlot_active .EX _) hc hb (hread ▸ hw))
  exact ⟨_, step_of_serves hr h1 h2 h3, finishStep_latchEX_MEM hEX2 w,
    (keptAfterMEM_finishStep (keptAfterMEM_of_serve_EX h3)).regs⟩

/-- Without a commit in WB the EX action reads the registers that the step began with, and so does the next step. -/
theorem step_without_commit {s t : State} (hp : s.pending = false)
    (hno : ∀ e, s.slots.WB = some e → commitsResult e.instr = false) (h : step s = .next t) :
    ∃ s2 s3, KeptBeforeEX s s2 ∧ s2.regs = s.regs ∧ serve exec .EX s2 = .next s3 ∧ t = finishStep s3 ∧
      t.regs = s.regs := by
  obtain ⟨-, s1, s2, s3, hWB, hMEM, hEX, -, K, rfl⟩ := step_ready_cases hp h
  have hregs : s2.regs = s.regs := (serve_MEM_regs hMEM).trans (serve_WB_regs_of_no_commit hWB hno)
  exact ⟨s2, s3, K, hregs, hEX, rfl, (keptAfterMEM_finishStep (keptAfterMEM_of_serve_EX hEX)).regs.trans hregs⟩

/-- Settles O18: the producer is still in MEM, where nothing writes a register. -/
theorem secondOperandCanBeStale : Obligations.SecondOperandCanBeStale := by
  intro s t p x d c hr hWB hMEM hp hd hEX hc h2 hs
  obtain ⟨-, -, hpending⟩ := hr
  obtain ⟨s2, s3, K, hregs, hserve, rfl, hkept⟩ :=
    step_without_commit hpending (fun e he => by cases hWB.symm.trans he) hs
  have hslot : s2.slots.get .EX = some x := K.slotEX.trans hEX
  have hproducer : s2.slots.MEM.map Entry.instr = some p.instr := by rw [K.slotMEM, hMEM]; rfl
  rw [serve_of_occupied hslot] at hserve
  rw [← hregs] at hkept ⊢
  refine ⟨fun w hw => ?_, fun hw => ?_, fun hw => ?_⟩
  · rw [exec_arithmetic_EX (serveSlot_active .EX s2) hc (.inl ⟨d, h2, rfl⟩) hw] at hserve
    cases hserve
    obtain ⟨-, hmoved⟩ := finishStep_moves (s := latchEX w (serveSlot .EX s2)) (by simp)
    exact ⟨finishStep_latchEX_MEM hslot w, hkept, by rw [hmoved]; exact hproducer⟩
  · rw [exec_branch_EX_not_taken (serveSlot_active .EX s2) hc h2 hw] at hserve
    cases hserve
    obtain ⟨hmoved, hmoved'⟩ := finishStep_moves (s := serveSlot .EX s2) (by simp)
    exact ⟨hmoved.trans hslot, hkept, by rw [hmoved']; exact hproducer⟩
  · obtain ⟨hc', -⟩ | ⟨-, v, k, hv, hk, -, rfl⟩ :=
      exec_branch_EX_cases (serveSlot_active .EX s2) hc h2 hw hserve
    · cases hc'
    · rw [finishStep_ended (flush_active _)] at hkept ⊢
      rw [serveSlot_pc, K.pc] at hk
      exact ⟨⟨v, hv, by rw [flush_pc, putPc_pc, hk]⟩, rfl, hkept⟩

/-! ## The instruction ahead of a transfer (R123) -/

/-- Settles O20: the commit in WB and the access in MEM stand, the rest is lost with the slots. -/
theorem predecessorOfATransferLosesItsWrite : Obligations.PredecessorOfATransferLosesItsWrite := by
  intro s t p hwf h hs hMEM
  obtain ⟨⟨-, -, hp⟩, -⟩ := step_of_flush h
  obtain ⟨s1, s2, hserve1, hserve2, -, K⟩ := step_parts hp hs
  obtain ⟨hparams, hslots, hmem, hcache, hhits, hmisses⟩ := serve_WB_rest hserve1
  have hregs := regs_after_step hserve2 K
  have hMEM1 : s1.slots.MEM = some p := hslots ▸ hMEM
  have hentry : ∀ {e}, s1.slots.MEM = some e → e = p := fun he => Option.some.inj (he.symm.trans hMEM1)
  refine ⟨slots_of_flush h hs, fun e r v he hc hr hv => ?_, fun hno => ?_, fun hc => ?_, fun o a hi ha => ?_,
    fun hld => ?_, fun o a r hi ha hr => ?_⟩
  · rw [hregs, serve_WB_regs_of_commits hserve1 he hc hr hv]
  · rw [hregs, serve_WB_regs_of_no_commit hserve1 hno]
  · rw [K.mem, serve_MEM_mem hserve2, hmem]
    intro e he hst
    rw [hentry he] at hst
    simp [commitsResult_iff, hst] at hc
  · obtain ⟨a', ha', rfl⟩ := serve_MEM_of_ld hserve2 hMEM1 hi
    have haa : a.val = a' := by simpa [ha] using ha'
    subst haa
    rw [K.cache, K.hits, K.misses, ← hparams, ← hcache, ← hmem, ← hhits, ← hmisses]
    exact ⟨rfl, rfl, rfl⟩
  · rw [K.cache, K.hits, K.misses, ← hcache, ← hhits, ← hmisses]
    exact serve_MEM_cache hserve2 fun e he => hentry he ▸ hld
  · obtain ⟨a', r', ha', -, hr', rfl⟩ := serve_MEM_of_st hserve2 hMEM1 hi
    have haa : a.val = a' := by simpa [ha] using ha'
    have hrr : r = r' := Fin.ext (by simpa [hr] using hr')
    subst haa hrr
    rw [K.mem, hregs, memWrite_mem, serveSlot_mem, hmem, Memory.read_write_same hwf]

/-! ## The sticky fault (R190, R191) -/

theorem perform_step_of_fault {s : State} {f : Fault} (h : step s = .fault f) :
    perform .step s = (afterFault s f f.code, .fault f) := by
  rw [perform, stepOperation, h]

/-- A load looks at the parameters and the external FIFO only (R230). -/
theorem loadProgram_congr {s t : State} (hparams : t.params = s.params) (hfifo : t.irqFifo = s.irqFifo)
    (p : List Instr) : loadProgram p t = loadProgram p s := by
  rw [loadProgram, hparams, hfifo, loadProgram]

/-- Settles O54: the fault status, the cycle and the FIFO are those of `afterFault`. -/
theorem faultIsStickyUntilALoad : Obligations.FaultIsStickyUntilALoad := by
  refine ⟨fun s f h => ?_, rfl⟩
  obtain ⟨-, hraised⟩ := step_fault_cases h
  rw [perform_step_of_fault h]
  refine ⟨rfl, ?_, rfl, ⟨_, step_of_fault rfl⟩, loadProgram_congr rfl rfl⟩
  cases f with
  | registerBounds n => exact .inl ⟨n, rfl, rfl⟩
  | pcBounds n => exact .inr (.inl ⟨n, rfl, rfl⟩)
  | memoryBounds n => exact .inr (.inr (.inl ⟨n, rfl, rfl⟩))
  | missingOperand op field => exact .inr (.inr (.inr ⟨op, field, rfl, rfl⟩))
  | configurationError capacity blockSize assoc => cases hraised
  | illegalInstruction index word => cases hraised

end Sys2Proof.Machine

/-! One instruction on its way through an otherwise empty pipeline (R155 to R159): the timing chart, the model's two
placements (assumption 5), and what an INT does to the fetch (R131). -/

namespace Sys2Proof.Machine

/-! ## Steps of a nearly empty pipeline -/

theorem hazard_of_ID_empty {s : State} (h : s.slots.ID = none) : hazard s = false := by
  simp only [hazard, h]

/-- With nothing in EX, MEM and WB a step only advances (R155). -/
theorem step_of_front {s : State} (hr : s.ready) (hEX : s.slots.EX = none) (hMEM : s.slots.MEM = none)
    (hWB : s.slots.WB = none) : step s = .next (advanceShift s) := by
  have h1 : serve exec .WB s = .next (serveSlot .WB s) := serve_of_empty hWB
  have h2 : serve exec .MEM (serveSlot .WB s) = .next (serveSlot .MEM s) := serve_of_empty hMEM
  have h3 : serve exec .EX (serveSlot .MEM s) = .next (serveSlot .EX s) := serve_of_empty hEX
  have hclear : hazard (serveSlot .EX s) = false := by
    simp only [hazard, serveSlot_slots, hEX]
    split <;> trivial
  rw [step_of_serves hr h1 h2 h3, finishStep_advance (serveSlot_active .EX s) hclear]
  rfl

/-- With one entry, in EX, a step is its action there and the advance, unless the action ends the step. -/
theorem step_of_only_EX {s : State} {e : Entry} (hr : s.ready) (h : s.slots = Slots.only .EX e) :
    step s = andThen (exec e.instr (serveSlot .EX s)) fun s' =>
      .next (if s'.active = none then s' else advanceShift s') := by
  have h1 : serve exec .WB s = .next (serveSlot .WB s) := serve_of_empty (by rw [h]; rfl)
  have h2 : serve exec .MEM (serveSlot .WB s) = .next (serveSlot .MEM s) :=
    serve_of_empty (by rw [serveSlot_slots, h]; rfl)
  have h3 : serve exec .EX (serveSlot .MEM s) = exec e.instr (serveSlot .EX s) :=
    serve_of_occupied (by rw [serveSlot_slots, h]; rfl)
  rw [step_ready hr, stageActions, h1, andThen_next, h2, andThen_next, h3]
  cases hexec : exec e.instr (serveSlot .EX s) with
  | next s' =>
    rw [andThen_next, andThen_next, finishStep_eq]
    split
    · rfl
    case isFalse ha =>
      have hID : s'.slots.ID = none := by
        rw [(keptInEX_of_active (h3.trans hexec) ha).slotID, serveSlot_slots, h]
        rfl
      rw [hazard_of_ID_empty hID, if_neg Bool.false_ne_true]
  | fault f => rfl
  | refused x => rfl

/-- With one entry, in MEM, a step is its action there and the advance. -/
theorem step_of_only_MEM {s : State} {e : Entry} (hr : s.ready) (h : s.slots = Slots.only .MEM e) :
    step s = andThen (exec e.instr (serveSlot .MEM s)) fun s' => .next (advanceShift s') := by
  have h1 : serve exec .WB s = .next (serveSlot .WB s) := serve_of_empty (by rw [h]; rfl)
  have h2 : serve exec .MEM (serveSlot .WB s) = exec e.instr (serveSlot .MEM s) :=
    serve_of_occupied (by rw [serveSlot_slots, h]; rfl)
  rw [step_ready hr, stageActions, h1, andThen_next, h2]
  cases hexec : exec e.instr (serveSlot .MEM s) with
  | next s' =>
    have K := serve_WB_MEM_kept h1 (h2.trans hexec)
    have h3 : serve exec .EX s' = .next (serveSlot .EX s') := serve_of_empty (K.slotEX.trans (by rw [h]; rfl))
    have hID : (serveSlot .EX s').slots.ID = none := K.slotID.trans (by rw [h]; rfl)
    rw [andThen_next, andThen_next, h3, andThen_next,
      finishStep_advance (serveSlot_active .EX s') (hazard_of_ID_empty hID)]
    rfl
  | fault f => rfl
  | refused x => rfl

/-- With one entry, in WB, a step is its action there and the advance. -/
theorem step_of_only_WB {s : State} {e : Entry} (hr : s.ready) (h : s.slots = Slots.only .WB e) :
    step s = andThen (exec e.instr (serveSlot .WB s)) fun s' => .next (advanceShift s') := by
  have h1 : serve exec .WB s = exec e.instr (serveSlot .WB s) := serve_of_occupied (by rw [h]; rfl)
  rw [step_ready hr, stageActions, h1]
  cases hexec : exec e.instr (serveSlot .WB s) with
  | next s' =>
    obtain ⟨-, hslots, -⟩ := serve_WB_rest (h1.trans hexec)
    have h2 : serve exec .MEM s' = .next (serveSlot .MEM s') := serve_of_empty (by rw [hslots, h]; rfl)
    have h3 : serve exec .EX (serveSlot .MEM s') = .next (serveSlot .EX s') :=
      serve_of_empty (by rw [serveSlot_slots, hslots, h]; rfl)
    have hID : (serveSlot .EX s').slots.ID = none := by rw [serveSlot_slots, hslots, h]; rfl
    rw [andThen_next, andThen_next, h2, andThen_next, h3, andThen_next,
      finishStep_advance (serveSlot_active .EX s') (hazard_of_ID_empty hID)]
    rfl
  | fault f => rfl
  | refused x => rfl

/-! ## The last instruction of a program, alone in the pipeline -/

/-- `s`, `n` cycles after it fetched its program's last instruction, which stands alone in the given slot. -/
def State.carrying (sl : Slot) (e : Entry) (n : Nat) (s : State) : State :=
  { s with slots := Slots.only sl e, pc := s.pc + 1, cycle := s.cycle + n, active := none }

/-- `s`, `n` cycles after it fetched its program's last instruction, which has left the pipeline. -/
def State.passed (n : Nat) (s : State) : State :=
  { s with slots := Slots.empty, pc := s.pc + 1, cycle := s.cycle + n, active := none }

theorem carrying_ready {s : State} (h : s.ready) (sl : Slot) (e : Entry) (n : Nat) : (s.carrying sl e n).ready := h

theorem run_succ_of_step {s t : State} (h : step s = .next t) (n : Nat) : run (n + 1) s = run n t := by
  rw [run, h, andThen_next]

/-- An advance beyond the program's end fetches nothing (R156). -/
theorem advanceShift_beyond {s : State} (h : s.prog.length ≤ s.pc) :
    advanceShift s = { s with
      slots := { IF := none, ID := s.slots.IF, EX := s.slots.ID, MEM := s.slots.EX, WB := s.slots.MEM }
      cycle := s.cycle + 1
      active := none } := by
  obtain ⟨hfetch, hnext⟩ := fetch_beyond h
  rw [advanceShift, hfetch, hnext]

theorem step_fetches_alone {s : State} {i : Instr} (hr : s.ready) (hslots : s.slots = Slots.empty)
    (hi : s.prog[s.pc]? = some i) : step s = .next (s.carrying .IF ⟨i, none⟩ 1) := by
  obtain ⟨hfetch, hnext⟩ := fetch_of_getElem? hi
  rw [step_of_front hr (by rw [hslots]; rfl) (by rw [hslots]; rfl) (by rw [hslots]; rfl), advanceShift, hfetch, hnext,
    hslots]
  rfl

section
variable {s : State} {e : Entry} {n : Nat} (hr : s.ready) (hlast : s.prog.length ≤ s.pc + 1)
include hr hlast

theorem step_carrying_IF : step (s.carrying .IF e n) = .next (s.carrying .ID e (n + 1)) := by
  rw [step_of_front (carrying_ready hr _ e n) rfl rfl rfl, advanceShift_beyond hlast]
  rfl

theorem step_carrying_ID : step (s.carrying .ID e n) = .next (s.carrying .EX e (n + 1)) := by
  rw [step_of_front (carrying_ready hr _ e n) rfl rfl rfl, advanceShift_beyond hlast]
  rfl

theorem step_carrying_EX_of_memory (hi : e.instr.opcode = .LD ∨ e.instr.opcode = .ST) :
    step (s.carrying .EX e n) = .next (s.carrying .MEM e (n + 1)) := by
  rw [step_of_only_EX (carrying_ready hr .EX e n) rfl,
    exec_EX_of_memory hi (serveSlot_active .EX _), andThen_next, if_neg (by simp), advanceShift_beyond hlast]
  rfl

theorem step_carrying_EX_of_arithmetic {r : Fin 32} {b v : Word} (hr1 : e.instr.operands.rs1 = some (r.val : Int))
    (hb : hasSecondOperand e.instr.operands s b) (hv : arithmeticResult e.instr (s.regs.get r) b = some v) :
    step (s.carrying .EX e n) = .next (s.carrying .MEM (e.withResult v) (n + 1)) := by
  rw [step_of_only_EX (carrying_ready hr .EX e n) rfl,
    exec_arithmetic_EX (s := serveSlot .EX (s.carrying .EX e n)) (serveSlot_active .EX _) hr1 hb hv,
    andThen_next, if_neg (by simp), advanceShift_beyond hlast]
  rfl

theorem step_carrying_MEM_of_no_memory (hld : e.instr.opcode ≠ .LD) (hst : e.instr.opcode ≠ .ST) :
    step (s.carrying .MEM e n) = .next (s.carrying .WB e (n + 1)) := by
  rw [step_of_only_MEM (carrying_ready hr .MEM e n) rfl,
    exec_MEM_of_no_memory hld hst (serveSlot_active .MEM _), andThen_next, advanceShift_beyond hlast]
  rfl

theorem step_carrying_MEM_of_ld {o : Operands} {a : Fin 1024} (hi : e.instr = .ld o)
    (ha : o.imm = some (a.val : Int)) :
    step (s.carrying .MEM e n) =
      .next ((recordAccess a.val s).carrying .WB (e.withResult (s.mem.read a.val)) (n + 1)) := by
  rw [step_of_only_MEM (carrying_ready hr .MEM e n) rfl, hi,
    exec_ld_MEM_next (serveSlot_active .MEM _) ha, andThen_next, advanceShift_beyond hlast]
  rfl

theorem step_carrying_MEM_of_st {o : Operands} {a : Fin 1024} {r : Fin 32} (hi : e.instr = .st o)
    (ha : o.imm = some (a.val : Int)) (hr1 : o.rs1 = some (r.val : Int)) :
    step (s.carrying .MEM e n) = .next ((memWrite a.val (s.regs.get r) s).carrying .WB e (n + 1)) := by
  rw [step_of_only_MEM (carrying_ready hr .MEM e n) rfl, hi,
    exec_st_MEM_next (serveSlot_active .MEM _) ha hr1, andThen_next, advanceShift_beyond hlast]
  rfl

theorem step_carrying_WB_of_commits {d : Fin 32} {v : Word} (hc : commitsResult e.instr = true)
    (hd : e.instr.operands.rd = some (d.val : Int)) (hv : e.result = some v) :
    step (s.carrying .WB e n) = .next ((putRegister d v s).passed (n + 1)) := by
  rw [step_of_only_WB (carrying_ready hr .WB e n) rfl,
    exec_commit_WB (serveSlot_active .WB _) hc hd rfl hv, andThen_next, advanceShift_beyond hlast]
  rfl

theorem step_carrying_WB_of_no_commit (hc : commitsResult e.instr = false) :
    step (s.carrying .WB e n) = .next (s.passed (n + 1)) := by
  rw [step_of_only_WB (carrying_ready hr .WB e n) rfl,
    exec_WB_of_no_commit hc (serveSlot_active .WB _), andThen_next, advanceShift_beyond hlast]
  rfl

/-- The fetch and the two shifts that carry the last instruction to EX (R159). -/
theorem run_three_and_more {i : Instr} (hslots : s.slots = Slots.empty) (hi : s.prog[s.pc]? = some i) (m : Nat) :
    run (m + 3) s = run m (s.carrying .EX ⟨i, none⟩ 3) := by
  rw [run_succ_of_step (step_fetches_alone hr hslots hi), run_succ_of_step (step_carrying_IF hr hlast),
    run_succ_of_step (step_carrying_ID hr hlast)]

end

/-! ## The timing chart (R159) -/

section
variable {s : State} {i : Instr} (hr : s.ready) (hlast : s.prog.length ≤ s.pc + 1) (hslots : s.slots = Slots.empty)
  (hi : s.prog[s.pc]? = some i)
include hr hlast hslots hi

theorem run_six_of_arithmetic {r d : Fin 32} {b v : Word} (hr1 : i.operands.rs1 = some (r.val : Int))
    (hd : i.operands.rd = some (d.val : Int)) (hb : hasSecondOperand i.operands s b)
    (hv : arithmeticResult i (s.regs.get r) b = some v) : run 6 s = .next ((putRegister d v s).passed 6) := by
  obtain ⟨hc, hld, hst⟩ := commits_and_no_memory_of_latchesInEX (latchesInEX_of_arithmeticResult hv)
  rw [run_three_and_more hr hlast hslots hi 3, run_succ_of_step (step_carrying_EX_of_arithmetic hr hlast hr1 hb hv),
    run_succ_of_step (step_carrying_MEM_of_no_memory hr hlast hld hst),
    run_succ_of_step (step_carrying_WB_of_commits hr hlast hc hd rfl)]
  rfl

theorem run_six_of_ld {d : Fin 32} {a : Fin 1024} {o : Operands} (ho : i = .ld o) (hd : o.rd = some (d.val : Int))
    (ha : o.imm = some (a.val : Int)) :
    run 6 s = .next ((putRegister d (s.mem.read a.val) (recordAccess a.val s)).passed 6) := by
  subst ho
  rw [run_three_and_more hr hlast hslots hi 3, run_succ_of_step (step_carrying_EX_of_memory hr hlast (.inl rfl)),
    run_succ_of_step (step_carrying_MEM_of_ld hr hlast rfl ha),
    run_succ_of_step (step_carrying_WB_of_commits (s := recordAccess a.val s)
      (e := Entry.withResult (s.mem.read a.val) ⟨.ld o, none⟩) hr hlast rfl hd rfl)]
  rfl

theorem run_six_of_st {r : Fin 32} {a : Fin 1024} {o : Operands} (ho : i = .st o) (hr1 : o.rs1 = some (r.val : Int))
    (ha : o.imm = some (a.val : Int)) :
    run 6 s = .next ((memWrite a.val (s.regs.get r) s).passed 6) := by
  subst ho
  rw [run_three_and_more hr hlast hslots hi 3, run_succ_of_step (step_carrying_EX_of_memory hr hlast (.inr rfl)),
    run_succ_of_step (step_carrying_MEM_of_st hr hlast rfl ha hr1),
    run_succ_of_step (step_carrying_WB_of_no_commit (s := memWrite a.val (s.regs.get r) s) hr hlast rfl)]
  rfl

end

/-- Settles O58: the six steps of each kind of instruction, one lemma per slot it passes. -/
theorem loneArithmeticLoadOrStoreCompletesInSixSteps :
    Obligations.LoneArithmeticLoadOrStoreCompletesInSixSteps := by
  intro s i hr hslots hi hlast
  refine ⟨fun r d b v hr1 hd hb hv => ?_, fun d a o ho hd ha => ?_, fun r a o ho hr1 ha => ?_⟩ <;> rw [hslots]
  · exact run_six_of_arithmetic hr hlast.ge hslots hi hr1 hd hb hv
  · exact run_six_of_ld hr hlast.ge hslots hi ho hd ha
  · exact run_six_of_st hr hlast.ge hslots hi ho hr1 ha

/-! ## The model's placements (assumption 5) -/

theorem length_putInstruction (p : List Instr) (k : Nat) (i : Instr) : (putInstruction p k i).length = k + 1 := by
  simp only [putInstruction, List.length_append, List.length_take, List.length_replicate, List.length_singleton]
  omega

theorem getElem?_putInstruction (p : List Instr) (k : Nat) (i : Instr) : (putInstruction p k i)[k]? = some i := by
  have hlen : (p.take k ++ List.replicate (k - p.length) i).length = k := by
    simp only [List.length_append, List.length_take, List.length_replicate]
    omega
  rw [putInstruction, ← List.append_assoc, List.getElem?_append_right hlen.le, hlen, Nat.sub_self]
  rfl

theorem withProgramWord_of_decodes {nbits w : Nat} {i : Instr} (h : decodeTableWord nbits w = some i) (s : State) :
    s.withProgramWord nbits w = placeForFetch i s := by
  simp only [State.withProgramWord, placeCode, h]

theorem withFetchWord_of_decodes {nbits w : Nat} {i : Instr} (h : decodeTableWord nbits w = some i) (s : State) :
    s.withFetchWord nbits w = placeForRun i s := by
  simp only [State.withFetchWord, placeCode, h]

theorem placeForFetch_ready (i : Instr) (s : State) : (placeForFetch i s).ready := ⟨rfl, rfl, rfl⟩

theorem placeForRun_ready (i : Instr) (s : State) : (placeForRun i s).ready := ⟨rfl, rfl, rfl⟩

/-- Settles O13: the placed word is the one that a step of the empty pipeline fetches. -/
theorem placedWordEntersIF : Obligations.PlacedWordEntersIF := by
  intro s nbits w i h
  rw [withProgramWord_of_decodes h]
  exact ⟨_, step_fetches_alone (placeForFetch_ready i s) rfl (getElem?_putInstruction s.prog s.pc i),
    rfl, rfl, rfl, rfl, rfl, rfl, rfl, rfl⟩

theorem run_placeForFetch (i : Instr) (s : State) (m : Nat) :
    run (m + 3) (placeForFetch i s) = run m ((placeForFetch i s).carrying .EX ⟨i, none⟩ 3) :=
  run_three_and_more (placeForFetch_ready i s) (length_putInstruction s.prog s.pc i).le rfl
    (getElem?_putInstruction s.prog s.pc i) m

/-- Settles O59: three steps carry the word to EX, a fourth carries LD and ST to MEM. -/
theorem placedWordRunsAtTheNextStep : Obligations.PlacedWordRunsAtTheNextStep := by
  intro s nbits w i h
  rw [withFetchWord_of_decodes h, withProgramWord_of_decodes h]
  refine ⟨fun hld hst => ?_, fun hop => ?_⟩
  · have hfirst : firstActionIn i = .EX := by
      cases i with
      | ld o => exact absurd rfl hld
      | st o => exact absurd rfl hst
      | _ => rfl
    have hslots : (placeForRun i s).slots = Slots.only .EX ⟨i, none⟩ := by rw [placeForRun_slots, hfirst]
    refine ⟨step_of_only_EX (placeForRun_ready i s) hslots, ?_⟩
    rw [run_placeForFetch i s 0, placeForRun, hfirst]
    rfl
  · have hfirst : firstActionIn i = .MEM := by
      cases i with
      | ld o | st o => rfl
      | _ => simp [Instr.opcode] at hop
    have hslots : (placeForRun i s).slots = Slots.only .MEM ⟨i, none⟩ := by rw [placeForRun_slots, hfirst]
    refine ⟨step_of_only_MEM (placeForRun_ready i s) hslots, ?_⟩
    rw [run_placeForFetch i s 1, placeForRun, hfirst, run_succ_of_step (step_carrying_EX_of_memory
      (placeForFetch_ready i s) (length_putInstruction s.prog s.pc i).le hop)]
    rfl

/-! ## After an INT (R131) -/

/-- Settles O57: the flush of INT, the frozen cycle, and an advance that finds only the service instruction. -/
theorem intDestroysTheTwoBehindIt : Obligations.IntDestroysTheTwoBehindIt := by
  intro s t e o hr he hi hs
  obtain ⟨hf, hl, hp⟩ := hr
  obtain ⟨-, s1, s2, s3, -, -, hEX, -, K, rfl⟩ := step_ready_cases hp hs
  have hslot : s2.slots.get .EX = some e := K.slotEX.trans he
  rw [serve_of_occupied hslot, hi, exec_int_EX (serveSlot_active .EX s2)] at hEX
  cases hEX
  rw [finishStep_ended (flush_active _)]
  have hu := step_frozen (s := flush (raisePending (serveSlot .EX s2))) (K.fault.trans hf) (K.loaded.trans hl) rfl
  have hv := step_of_front (s := interruptEntry (flush (raisePending (serveSlot .EX s2))))
    ⟨K.fault.trans hf, K.loaded.trans hl, rfl⟩ rfl rfl rfl
  refine ⟨rfl, K.pc, rfl, _, _, hu, ?_, K.pc, rfl, rfl, rfl, hv, ?_, ?_⟩
  · rw [← K.params]
    rfl
  · rw [← K.params, ← K.prog, ← K.pc]
    rfl
  · rw [← K.cycle]
    rfl

end Sys2Proof.Machine

/-! The decoder's rejections (R78, R86, R87), images and loads (R86, R230), construction (R231) and the
host's reads (R222). -/

namespace Sys2Proof

/-! ## What the decoder rejects (R86, R87) -/

theorem opcodeOf_eq_none_iff (b : BitVec 4) : opcodeOf b.toNat = none ↔ b.toNat = 0 ∨ 10 ≤ b.toNat := by
  revert b
  decide

theorem decode_rejects_iff (W : Code) :
    (∃ e, decode W = .error e) ↔ opcodeOf (opcField W).toNat = none ∨ ¬absentFieldsZero W := by
  have hok : (∃ e, decode W = .error e) ↔ ¬∃ i, decode W = .ok i := by cases decode W <;> simp
  rw [hok]
  simp only [decode_eq_ok_iff]
  constructor
  · intro h
    by_contra! hlegal
    obtain ⟨hop, hz⟩ := hlegal
    obtain ⟨op, hop⟩ := Option.ne_none_iff_exists'.1 hop
    exact h ⟨op.instr (decodeOperands W), by rw [hop, opcode_instr], hz, by rw [operands_instr]⟩
  · rintro h ⟨i, hop, hz, -⟩
    obtain hnone | hnz := h
    · cases hop.symm.trans hnone
    · exact hnz hz

theorem not_absentFieldsZero_iff (W : Code) : ¬absentFieldsZero W ↔
    (rdPresent W = false ∧ rdField W ≠ 0) ∨ (rs1Present W = false ∧ rs1Field W ≠ 0) ∨
      (rs2Present W = false ∧ rs2Field W ≠ 0) ∨ (immPresent W = false ∧ immField W ≠ 0) := by
  simp only [absentFieldsZero, not_and_or, Classical.not_imp]

/-- Settles O2: no record comes out exactly when the opcode is illegal or an absent field is not all zeros. -/
theorem decodeRejectsExactlyTheIllegalWords : Obligations.DecodeRejectsExactlyTheIllegalWords := by
  intro W
  rw [decode_rejects_iff, opcodeOf_eq_none_iff, not_absentFieldsZero_iff]
  rfl

/-- Settles O3: the words are evaluated. -/
theorem writtenOutWordsDecode : Obligations.WrittenOutWordsDecode := by
  unfold Obligations.WrittenOutWordsDecode
  decide

/-! ## Images (R86) -/

theorem decodeImageFrom_of_decodes {image : List Code} {p : List Instr} (h : image.map decode = p.map Except.ok)
    (k : Nat) : decodeImageFrom k image = .ok p := by
  induction image generalizing p k with
  | nil =>
    cases p with
    | nil => rfl
    | cons i p => cases h
  | cons W image ih =>
    cases p with
    | nil => cases h
    | cons i p =>
      obtain ⟨hW, hrest⟩ := List.cons.inj h
      simp only [decodeImageFrom, hW, ih hrest]

theorem decodeImageFrom_of_illegal {before after : List Code} {W : Code} {e : DecodeError} {p : List Instr}
    (h : before.map decode = p.map Except.ok) (hW : decode W = .error e) (k : Nat) :
    decodeImageFrom k (before ++ W :: after) = .error (k + before.length, W) := by
  induction before generalizing p k with
  | nil => simp [decodeImageFrom, hW]
  | cons V before ih =>
    cases p with
    | nil => cases h
    | cons i p =>
      obtain ⟨hV, hrest⟩ := List.cons.inj h
      simp only [List.cons_append, decodeImageFrom, hV, ih hrest, List.length_cons]
      congr 2
      omega

end Sys2Proof

namespace Sys2Proof.Machine

theorem loadImage_of_decodes {image : List Code} {p : List Instr} (h : image.map decode = p.map Except.ok) (s : State) :
    loadImage image s = perform (.loadProgram p) s := by
  rw [loadImage, decodeImage, decodeImageFrom_of_decodes h]
  rfl

/-- Settles O4: the decoding of the image by induction on it, then the load of its records. -/
theorem imageLoadIsAllOrNothing : Obligations.ImageLoadIsAllOrNothing := by
  refine fun image s => ⟨fun p h => loadImage_of_decodes h s, ?_⟩
  rintro before after W e p rfl h hW
  rw [loadImage, decodeImage, decodeImageFrom_of_illegal h hW, Nat.zero_add]

/-! ## The load (R37, R230) and the state before it (R231) -/

theorem loadProgram_of_length_le {p : List Instr} {s : State} (h : p.length ≤ imemLimit s.params) :
    loadProgram p s = .ok (State.afterLoad s.params s.irqFifo p) := by
  rw [loadProgram, if_pos h]

theorem le_imemLimit_iff {n : Nat} {p : Params} :
    n ≤ imemLimit p ↔ n ≤ 2147483647 ∧ ∀ k, p.imemSize = some k → n ≤ k := by
  unfold imemLimit
  cases p.imemSize with
  | none => simp
  | some k => simp [and_comm]

theorem step_afterLoad (params : Params) (q : List Tag) (p : List Instr) :
    step (State.afterLoad params q p) = .next (advanceShift (State.afterLoad params q p)) :=
  step_of_front ⟨rfl, rfl, rfl⟩ rfl rfl rfl

theorem construct_eq_ok {capacity blockSize assoc : Int} {rd : Fin 32} {addr : Fin 1024} {imem irq : Option Nat}
    {absent : Bool} {s : State} (h : construct capacity blockSize assoc rd addr imem irq absent = .ok s) :
    geometryLegal capacity blockSize assoc = true ∧ s.regs = Vector.replicate 32 0 ∧ s.irqFifo = [] ∧
      s.fault = none ∧ s.loaded = false := by
  unfold construct at h
  split at h
  case isTrue hlegal => cases h; exact ⟨hlegal, rfl, rfl, rfl, rfl⟩
  case isFalse => cases h

theorem regs_get_replicate (r : Fin 32) : (Vector.replicate 32 (0 : Word)).get r = 0 := by
  simp [Vector.get_eq_getElem]

/-- Settles O5: the fields of `State.afterLoad`, and those that `construct` sets. -/
theorem loadGivesTheResetState : Obligations.LoadGivesTheResetState := by
  refine ⟨fun p s hle himem => ?_, fun capacity blockSize assoc rd addr imem irq absent s h => ?_⟩
  · refine ⟨_, loadProgram_of_length_le (le_imemLimit_iff.2 ⟨hle, himem⟩), regs_get_replicate, fun a ha => ?_,
      fun a ha _ => ?_, rfl, rfl, rfl, rfl, rfl, rfl, rfl, rfl, rfl, rfl, List.length_replicate,
      fun lines => List.eq_of_mem_replicate, rfl, rfl, rfl, rfl, rfl, _, step_afterLoad s.params s.irqFifo p, ?_, rfl⟩
    · exact if_pos (by omega)
    · exact if_neg (by omega)
    · change (p[0]?.map fun i => (⟨i, none⟩ : Entry)).map Entry.instr = p[0]?
      rw [Option.map_map]
      exact congrFun Option.map_id p[0]?
  · obtain ⟨hlegal, hregs, hfifo, hfault, hloaded⟩ := construct_eq_ok h
    exact ⟨fun r => by rw [hregs, regs_get_replicate], hlegal, hfifo, step_of_unloaded hfault hloaded⟩

/-! ## The longest program (R230) -/

theorem imemLimit_bounds (P : Params) : (∀ n, P.imemSize = some n → imemLimit P ≤ n) ∧ imemLimit P ≤ 2147483647 ∧
    (P.imemSize = none → imemLimit P = 2147483647) ∧
    (∀ n, P.imemSize = some n → n ≤ 2147483647 → imemLimit P = n) := by
  unfold imemLimit
  cases P.imemSize with
  | none => simp
  | some n => simp

theorem loadProgram_of_limit_lt {p : List Instr} {s : State} (h : imemLimit s.params < p.length) :
    loadProgram p s = .error (.programTooLong p.length) := by
  rw [loadProgram, if_neg (Nat.not_le.2 h)]

/-- Settles O60: such a program is above the limit, and an image is loaded as its records are. -/
theorem loadRefusesALongerProgram : Obligations.LoadRefusesALongerProgram := by
  refine ⟨imemLimit_bounds, fun p s h => ?_⟩
  have hlimit : imemLimit s.params < p.length := by
    rw [← Nat.not_le, le_imemLimit_iff]
    rintro ⟨hle, himem⟩
    obtain hlt | ⟨n, hn, hlt⟩ := h
    · omega
    · exact absurd (himem n hn) (Nat.not_le.2 hlt)
  have hrefused : perform (.loadProgram p) s = (s, .refused (.programTooLong p.length)) := by
    rw [perform, loadProgram_of_limit_lt hlimit, orRefused]
  exact ⟨hrefused, fun image himage => (loadImage_of_decodes himage s).trans hrefused⟩

/-! ## Construction (R7, R170, R231) -/

theorem geometryLegal_iff_dvd {capacity blockSize assoc : Int} :
    geometryLegal capacity blockSize assoc = true ↔
      1 ≤ capacity ∧ 1 ≤ blockSize ∧ 1 ≤ assoc ∧ blockSize * assoc ∣ capacity := by
  rw [geometryLegal_iff, Int.dvd_iff_emod_eq_zero]

/-- Settles O50: the three integers of a legal geometry are naturals, and the division is exact. -/
theorem constructionChecksTheGeometry : Obligations.ConstructionChecksTheGeometry := by
  intro capacity blockSize assoc rd addr imem irq absent
  rw [← geometryLegal_iff_dvd]
  refine ⟨fun h => ?_, fun h => if_neg h⟩
  obtain ⟨hcap, hblock, hassoc, -⟩ := geometryLegal_iff.1 h
  obtain ⟨capacity, rfl⟩ := Int.eq_ofNat_of_zero_le (show 0 ≤ capacity by omega)
  obtain ⟨blockSize, rfl⟩ := Int.eq_ofNat_of_zero_le (show 0 ≤ blockSize by omega)
  obtain ⟨assoc, rfl⟩ := Int.eq_ofNat_of_zero_le (show 0 ≤ assoc by omega)
  obtain ⟨-, -, hsets, hexact⟩ := geometryLegal_pos
    (p := ⟨capacity, blockSize, assoc, rd, addr, imem, irq, absent⟩) h
  refine ⟨_, if_pos h, rfl, rfl, rfl, rfl, rfl, rfl, rfl, rfl, ?_, hsets⟩
  rw [mul_comm]
  exact_mod_cast hexact.symm

/-! ## The host's reads (R222) -/

theorem getElem?_memoryWindow {s : State} {lo hi : Fin 1024} {k : Nat} (h : lo.val + k ≤ hi.val) :
    (memoryWindow s lo hi)[k]? = some (s.mem.read (lo.val + k)) := by
  have hk : k < hi.val + 1 - lo.val := by omega
  rw [memoryWindow, List.getElem?_map, List.getElem?_range hk]
  rfl

/-- Settles O53: the reads one by one, the window word by word. -/
theorem snapshotsChangeNothing : Obligations.SnapshotsChangeNothing := by
  refine ⟨fun op s h => ?_, fun s => ⟨rfl, rfl, rfl, rfl, rfl⟩, fun s lo hi h => ⟨_, rfl, ?_, fun k =>
    getElem?_memoryWindow⟩⟩
  · cases op with
    | loadProgram | loadImage | step | trigger | handleNext | setPending => cases h
    | _ => rfl
  · rw [memoryWindow, List.length_map, List.length_range]
    omega

end Sys2Proof.Machine

/-! The order of eviction (R172, R173, R180): a set holds the newest lines inserted into it, `ASSOC` of them. -/

namespace Sys2Proof.Machine

/-! ## The newest lines -/

/-- The last `n` of a list of lines, the oldest first. -/
def newest (n : Nat) (lines : CacheSet) : CacheSet := lines.drop (lines.length - n)

theorem newest_of_length_le {n : Nat} {lines : CacheSet} (h : lines.length ≤ n) : newest n lines = lines := by
  rw [newest, Nat.sub_eq_zero_of_le h, List.drop_zero]

theorem length_newest_le (n : Nat) (lines : CacheSet) : (newest n lines).length ≤ n := by
  rw [newest, List.length_drop]
  omega

theorem mem_of_mem_newest {n : Nat} {lines : CacheSet} {l : CacheLine} (h : l ∈ newest n lines) : l ∈ lines :=
  List.mem_of_mem_drop h

/-- What was dropped before more lines came would have been dropped after them. -/
theorem newest_newest_append (n : Nat) (old new : CacheSet) :
    newest n (newest n old ++ new) = newest n (old ++ new) := by
  have hdrop : newest n old ++ new = (old ++ new).drop (old.length - n) := by
    rw [newest, List.drop_append_of_le_length (Nat.sub_le _ _)]
  rw [newest, hdrop, List.drop_drop, newest, List.length_drop, List.length_append]
  congr 1
  omega

theorem insertLine_eq_newest {assoc : Nat} {lines : CacheSet} (h : lines.length ≤ assoc) (l : CacheLine) :
    insertLine assoc lines l = newest assoc (lines ++ [l]) := by
  rw [insertLine_eq, newest, List.length_append, List.length_singleton]
  split
  · rw [show lines.length + 1 - assoc = 1 by omega]
  · rw [show lines.length + 1 - assoc = 0 by omega, List.drop_zero]

/-! ## One access -/

/-- The line that an access inserts if it misses (R172). -/
def lineOf (p : Params) (x : Memory × Nat) : CacheLine := ⟨true, tagOf p x.2, x.1.read x.2⟩

/-- The lines that a list of missing accesses inserts into the set with index `k`. -/
def linesInto (p : Params) (k : Nat) (missed : List (Memory × Nat)) : CacheSet :=
  (missed.filter fun x => setIndex p x.2 = k).map (lineOf p)

theorem length_cacheAccess (p : Params) (c : Cache) (m : Memory) (a : Nat) :
    (cacheAccess p c m a).2.length = c.length := by
  unfold cacheAccess
  split
  · rfl
  · exact List.length_set

theorem setAt_set_other {c : Cache} {j k : Nat} (h : j ≠ k) (lines : CacheSet) :
    setAt (c.set j lines) k = setAt c k := by
  simp [setAt, List.getD, h]

theorem accessesMissed_cons (p : Params) (c : Cache) (x : Memory × Nat) (rest : List (Memory × Nat)) :
    accessesMissed p c (x :: rest) =
      accessesMissed p c [x] ++ accessesMissed p (cacheAccess p c x.1 x.2).2 rest := by
  simp only [accessesMissed]
  split <;> rfl

/-- An access that misses adds its line to its set, which then drops its oldest if it is too large (R172, R173). -/
theorem setAt_cacheAccess {p : Params} {c : Cache} {k : Nat} (hk : k < c.length) (hlen : (setAt c k).length ≤ p.assoc)
    (m : Memory) (a : Nat) : setAt (cacheAccess p c m a).2 k =
      newest p.assoc (setAt c k ++ linesInto p k (accessesMissed p c [(m, a)])) := by
  cases hhit : holdsTag (setAt c (setIndex p a)) (tagOf p a) with
  | true => simp [accessesMissed, cacheAccess_hit hhit, linesInto, newest_of_length_le hlen]
  | false =>
    rw [accessesMissed, cacheAccess_miss hhit]
    by_cases hset : setIndex p a = k
    · subst hset
      rw [setAt_set_same hk, insertLine_eq_newest hlen]
      simp [linesInto, accessesMissed, lineOf]
    · rw [setAt_set_other hset]
      simp [linesInto, accessesMissed, hset, newest_of_length_le hlen]

/-- The new lines of a set are those of the access. -/
theorem mem_setAt_cacheAccess {p : Params} {c : Cache} {k : Nat} (hk : k < c.length)
    (hlen : (setAt c k).length ≤ p.assoc) {m : Memory} {a : Nat} {l : CacheLine}
    (h : l ∈ setAt (cacheAccess p c m a).2 k) : l ∈ setAt c k ∨ l.tag = tagOf p a := by
  rw [setAt_cacheAccess hk hlen] at h
  refine (List.mem_append.1 (mem_of_mem_newest h)).imp_right fun hnew => ?_
  obtain ⟨x, hx, rfl⟩ := List.mem_map.1 hnew
  have hx' := List.mem_of_mem_filter hx
  simp only [accessesMissed] at hx'
  split at hx'
  · cases hx'
  · rw [List.mem_singleton.1 hx']
    rfl

theorem setAt_cacheAccess_length_le {p : Params} {c : Cache} {k : Nat} (hk : k < c.length)
    (hlen : (setAt c k).length ≤ p.assoc) (m : Memory) (a : Nat) :
    (setAt (cacheAccess p c m a).2 k).length ≤ p.assoc := by
  rw [setAt_cacheAccess hk hlen]
  exact length_newest_le _ _

/-! ## A sequence of accesses -/

theorem setAt_accessAll {p : Params} {c : Cache} {k : Nat} (hk : k < c.length) (hlen : (setAt c k).length ≤ p.assoc)
    (accessed : List (Memory × Nat)) : setAt (accessAll p c accessed) k =
      newest p.assoc (setAt c k ++ linesInto p k (accessesMissed p c accessed)) := by
  induction accessed generalizing c with
  | nil => simp [accessAll, accessesMissed, linesInto, newest_of_length_le hlen]
  | cons x rest ih =>
    have hk' : k < (cacheAccess p c x.1 x.2).2.length := by rwa [length_cacheAccess]
    have happend : linesInto p k (accessesMissed p c (x :: rest)) = linesInto p k (accessesMissed p c [x]) ++
        linesInto p k (accessesMissed p (cacheAccess p c x.1 x.2).2 rest) := by
      rw [accessesMissed_cons, linesInto, List.filter_append, List.map_append]
      rfl
    rw [accessAll, ih hk' (setAt_cacheAccess_length_le hk hlen x.1 x.2), setAt_cacheAccess hk hlen,
      newest_newest_append, happend, List.append_assoc]

/-- Accesses to one set with new and pairwise distinct tags all miss: none finds the line of another. -/
theorem accessesMissed_of_distinct {p : Params} {c : Cache} {m : Memory} {k : Nat} {accessed : List Nat}
    (hk : k < c.length) (hlen : (setAt c k).length ≤ p.assoc) (hset : ∀ a ∈ accessed, setIndex p a = k)
    (hnodup : (accessed.map (tagOf p)).Nodup) (hnew : ∀ a ∈ accessed, ∀ l ∈ setAt c k, l.tag ≠ tagOf p a) :
    accessesMissed p c (accessed.map fun a => (m, a)) = accessed.map fun a => (m, a) := by
  induction accessed generalizing c with
  | nil => rfl
  | cons a rest ih =>
    obtain ⟨hfresh, hnodup⟩ := List.nodup_cons.1 hnodup
    have hmiss : (cacheAccess p c m a).1 = false := by
      rw [cacheAccess_fst, hset a List.mem_cons_self, Bool.eq_false_iff, ne_eq, holdsTag_iff]
      rintro ⟨l, hl, -, htag⟩
      exact hnew a List.mem_cons_self l hl htag
    have hrest := ih (c := (cacheAccess p c m a).2) (by rwa [length_cacheAccess])
      (setAt_cacheAccess_length_le hk hlen m a) (fun b hb => hset b (List.mem_cons_of_mem a hb)) hnodup
      fun b hb l hl htag => ?_
    · simp only [List.map_cons, accessesMissed, hmiss, hrest, Bool.false_eq_true, if_false]
    · obtain hold | htag' := mem_setAt_cacheAccess hk hlen hl
      · exact hnew b (List.mem_cons_of_mem a hb) l hold htag
      · exact hfresh (List.mem_map.2 ⟨b, hb, htag.symm.trans htag'⟩)

/-- Settles O48: any accesses by induction on their list, distinct tags by the accesses that all miss. -/
theorem evictionFollowsInsertionOrder : Obligations.EvictionFollowsInsertionOrder := by
  refine ⟨fun p c k accessed hk hlen => ?_, fun p c m k accessed hk hlen hset hnodup hnew => ?_⟩
  · rw [setAt_accessAll hk hlen, newest, List.length_append, linesInto, List.length_map]
    rfl
  · have hall : (accessed.map fun a => (m, a)).filter (fun x => setIndex p x.2 = k) =
        accessed.map fun a => (m, a) := by
      rw [List.filter_eq_self]
      intro x hx
      obtain ⟨a, ha, rfl⟩ := List.mem_map.1 hx
      exact decide_eq_true (hset a ha)
    rw [setAt_accessAll hk hlen, accessesMissed_of_distinct hk hlen hset hnodup hnew, newest, linesInto, hall,
      List.length_append, List.length_map, List.length_map, List.map_map]
    rfl

/-! ## A repeated access (R180 (a)) -/

theorem mem_insertLine {assoc : Nat} (h : 1 ≤ assoc) (lines : CacheSet) (l : CacheLine) :
    l ∈ insertLine assoc lines l := by
  rw [insertLine_eq]
  split
  · rw [List.drop_append_of_le_length (by omega)]
    exact List.mem_append_right _ List.mem_cons_self
  · exact List.mem_append_right _ List.mem_cons_self

/-- Settles O47: a miss leaves the line it inserts, since a set holds at least one. -/
theorem cacheRepeatHits : Obligations.CacheRepeatHits := by
  intro p c m m' a hlegal hwf
  obtain ⟨-, hassoc, -, -⟩ := geometryLegal_pos hlegal
  have hindex : setIndex p a < c.length := by
    simp only [cacheWf, Bool.and_eq_true, decide_eq_true_eq] at hwf
    obtain ⟨hlen, -⟩ := hwf
    exact hlen ▸ setIndex_lt hlegal a
  cases hhit : holdsTag (setAt c (setIndex p a)) (tagOf p a) with
  | true => rw [cacheAccess_hit hhit, cacheAccess_hit hhit]
  | false =>
    rw [cacheAccess_miss hhit]
    refine cacheAccess_hit ?_
    rw [setAt_set_same hindex, holdsTag_iff]
    exact ⟨_, mem_insertLine hassoc _ _, rfl, rfl⟩

end Sys2Proof.Machine
